-- ==== Sys2Proof/Word.lean ====
section
/-! DEFINITION. The two bit-vector types of PEMUX: the 32-bit word of the command port (R50) and the byte of a payload, of the
slot-identifier table and of `TX` (R6, R8, R20). -/

namespace Sys2Proof

/-- A word of the command port: a header or an operand word (R50). -/
abbrev Word := BitVec 32

/-- A byte is 8 bits (R6). -/
abbrev Byte := BitVec 8

end Sys2Proof
end

