-- ==== Sys2Proof/Config.lean ====
section
/-! DEFINITION. The parameters the spec leaves open (R5 and the last table of spec/92_eei_decisions.md), as one record of plain
data. The values the spec gives as defaults stand in Machine/Params.lean. -/

namespace Sys2Proof

/-- The six fields `SBS10G` computes before it lays them out in eight payloads (R130). -/
inductive GpsField where
  | utc | lat | lon | alt | speed | vario
  deriving DecidableEq, Repr

/-- What one payload bit of `SBS10G` is, as plain data: a decision tree over the bits of the fields. A constant bit, or a test of
bit `n` of field `f` with one tree for each answer. Every function of finitely many field bits is such a tree (entry 5). -/
inductive BitSource where
  | const (b : Bool)
  | test (f : GpsField) (n : Nat) (ifSet ifClear : BitSource)
  deriving DecidableEq, Repr

/-- One tree for each bit of each of the sixteen payload bytes. -/
abbrev Layout := Vector (Vector BitSource 8) 16

/-- The open parameters that a rule of the block reads (R5, U16). Every function that needs one takes this record as an
argument, so that a statement over all states is a statement over all parameters (entry 2). -/
structure Config where
  /-- `TIME_W`: the width in bits of `now`, `elapsed` and `minNext` (D3). -/
  timeW : Nat
  /-- `SLOT_ID[4..31]`; entries 0 to 3 are fixed by the source (R16, D15). -/
  slotIdRest : Vector Byte 28
  /-- `F1675_TIME`: the constant of slot 2 of `GPS1675` (R112, D16). -/
  f1675Time : BitVec 16
  /-- `SBS10G_LAYOUT`, a function from the six fields to eight payloads (D19), bit by bit: `layout[j][i]` is bit `i` of payload
  byte `j`, the sixteen payload bytes being counted `p0.b0, p0.b1, p1.b0, …` as in the second description of R137 (entry 5). -/
  layout : Layout
  deriving DecidableEq, Repr

/-- What R5 and D3 ask of the parameters: `TIME_W` is at least 18. -/
abbrev Config.wf (c : Config) : Prop := 18 ≤ c.timeW

end Sys2Proof
end

