-- ==== Sys2Proof/Machine/Params.lean ====
section
/-! DEFINITION. The nine constants of R4, the slot-identifier table of R16, and the spec's defaults for the open parameters. -/

namespace Sys2Proof

/-- `SLOT_COUNT` (R4). -/
abbrev slotCount : Nat := 32
/-- `PAGE_COUNT` (R4). -/
abbrev pageCount : Nat := 4
/-- `SLOTS_PER_PAGE` (R4). -/
abbrev slotsPerPage : Nat := 8
/-- `DEADTIME`, microseconds (R4). -/
abbrev deadTime : Nat := 2000
/-- `SLOT_TIME`, microseconds (R4). -/
abbrev slotTime : Nat := 650
/-- `SLOT_DELAY_MAX = min(350, SLOT_TIME/2)`, microseconds (R4, R73). -/
abbrev slotDelayMax : Nat := min 350 (slotTime / 2)
/-- `STALE_MAX`, microseconds (R4). -/
abbrev staleMax : Nat := 8000
/-- `MIN_SPACING`, microseconds (R4). -/
abbrev minSpacing : Nat := 1000
/-- `FRAME_BYTES` (R4). -/
abbrev frameBytes : Nat := 3

/-- The four entries of `SLOT_ID` that the source gives (R16). -/
def slotIdFixed : Vector Byte 4 := #v[0x03, 0x83, 0x43, 0xC3]

/-- `SLOT_ID[i]` (R16): entries 0 to 3 are constants, the others the parameter. -/
def slotId (c : Config) (i : Fin 32) : Byte :=
  if h : i.val < 4 then slotIdFixed[i.val] else c.slotIdRest[i.val - 4]

/-- The default of `SLOT_ID[4..31]`, as the table of R16 prints it (PRESUMED: general knowledge by the spec's own mark, G1;
unsafe, entry 3). -/
def defaultSlotIdRest : Vector Byte 28 :=
  #v[                        0x23, 0xA3, 0x63, 0xE3,
     0x13, 0x93, 0x53, 0xD3, 0x33, 0xB3, 0x73, 0xF3,
     0x0B, 0x8B, 0x4B, 0xCB, 0x2B, 0xAB, 0x6B, 0xEB,
     0x1B, 0x9B, 0x5B, 0xDB, 0x3B, 0xBB, 0x7B, 0xFB]

/-- A payload bit that is bit `n` of field `f`. -/
def fieldBit (f : GpsField) (n : Nat) : BitSource := .test f n (.const true) (.const false)

/-- Bits `0 .. n-1` of field `f`, in that order. -/
def fieldBits (f : GpsField) (n : Nat) : List BitSource := (List.range n).map (fieldBit f)

/-- The 128 bits of the number `W` of R137, bit 0 first: `utc[16:0]`, `lat[26:0]` from bit 17, `lon[27:0]` from bit 44,
`speed[9:0]` from bit 72, zeros in bits 82 to 101, `alt[12:0]` from bit 102, `vario[12:0]` from bit 115. -/
def defaultBits : Vector BitSource 128 :=
  ⟨(fieldBits .utc 17 ++ fieldBits .lat 27 ++ fieldBits .lon 28 ++ fieldBits .speed 10
    ++ List.replicate 20 (BitSource.const false) ++ fieldBits .alt 13 ++ fieldBits .vario 13).toArray, by simp [fieldBits]⟩

/-- The default `SBS10G_LAYOUT` (PRESUMED: general knowledge by the spec's own mark, G3; unsafe, entry 5): byte `j` is
`W[8j+7:8j]` (R137). -/
def defaultLayout : Layout := Vector.ofFn fun j => Vector.ofFn fun i => defaultBits[8 * j.val + i.val]

/-- The parameters at the spec's defaults (R5). -/
def defaultConfig : Config where
  timeW := 32
  slotIdRest := defaultSlotIdRest
  f1675Time := 0xB0F0
  layout := defaultLayout

end Sys2Proof
end

