-- ==== Sys2Proof/Machine/State.lean ====
section
/-! DEFINITION. The machine's state as plain data, the reasons a step could stop, and the state right after reset (R10 to R24). -/

namespace Sys2Proof.Machine

/-- A payload is an ordered pair of bytes: `b0` is sent second in the frame, `b1` third (R8). -/
structure Payload where
  b0 : Byte
  b1 : Byte
  deriving DecidableEq, Repr

/-- One slot `S[i]`: exactly three stored fields (R11). -/
structure Slot where
  /-- The staged 2-byte payload. -/
  payload : Payload
  /-- A payload has been staged since reset (R15). -/
  used : Bool
  /-- The earliest `now` at which the slot may be sent again: an unsigned count of microseconds below `2 ^ TIME_W` (R11, R83;
  `State.Inv` states the bound and every step keeps it). -/
  minNext : Nat
  deriving DecidableEq, Repr

/-- What the host presents: a word on the command port (R50, D5) or the reset input (R190). -/
inductive PortEvent where
  | word (w : Word)
  | reset
  deriving DecidableEq, Repr

/-- The machine. `slots` and `tx` are the block's whole state (R10, R20, R21). `port` and `cfg` are the MODEL's own fields: the
inputs the host still presents (R14; entry 1) and the open parameters, which no step writes (R5, R22; entry 2). -/
structure State where
  /-- `S[0..31]`, the slot array (R10). -/
  slots : Vector Slot 32
  /-- `TX`, every byte passed to the serial port since reset, oldest first (R20). -/
  tx : List Byte
  /-- What the host presents next, in its order (R14). -/
  port : List PortEvent
  /-- The open parameters (R5). -/
  cfg : Config
  deriving DecidableEq, Repr

/-- The reasons a step can stop with a fault: there is none. "The block raises no exception of any kind … it needs no fault
outcome" (R170), so no constructor exists and nothing raises one; that is safe, since nothing is left out (entry 14). -/
inductive Fault where
  deriving DecidableEq, Repr

/-- The reasons a step can be refused. -/
inductive Refusal where
  /-- An arm of `exec` for a command that has no meaning yet; safe, since nothing can be proved of it. No arm raises it: all
  twelve commands have their meaning. -/
  | notModelled (mnemonic : String)
  deriving DecidableEq, Repr

/-- A slot after reset (R24). -/
def resetSlot : Slot := { payload := { b0 := 0x00, b1 := 0x00 }, used := false, minNext := 0 }

/-- The machine right after reset (R24, R190), with nothing presented yet (entry 1) and the parameters at the spec's defaults
(R5; entry 2). -/
def State.reset : State where
  slots := Vector.replicate 32 resetSlot
  tx := []
  port := []
  cfg := defaultConfig

end Sys2Proof.Machine
end

