-- ==== Sys2Proof/Machine/Operands.lean ====
section
/-! DEFINITION. The arithmetic primitives of R7 and R60 to R63, over the unbounded integers: how an operand word is read, the
bitwise OR and AND with a mask, the division, the clamp, and the two byte orders of a field. -/

namespace Sys2Proof.Machine

/-- `sext_32(w)`: an operand word of format C as a signed integer (R7, R54). -/
def sext32 (w : Word) : Int := w.toInt

/-- `a | m` for a mask `m >= 0`, on the two's-complement forms, the result read back as a signed integer (R7, R62). For a negative
`a = -(n+1)` the form is the complement of `n`, and `~n | m = ~(n & ~m)`. -/
def orMask (a : Int) (m : Nat) : Int :=
  match a with
  | .ofNat n => .ofNat (n ||| m)
  | .negSucc n => .negSucc (n - (n &&& m))

/-- `a & m` for a mask `m >= 0`, likewise (R7): `~n & m = m - (n & m)`. -/
def andMask (a : Int) (m : Nat) : Int :=
  match a with
  | .ofNat n => .ofNat (n &&& m)
  | .negSucc n => .ofNat (m - (n &&& m))

/-- `a div b`: division rounding toward zero (R7, R63). -/
def truncDiv (a b : Int) : Int := a.tdiv b

/-- `clamp(v, lo, hi)` (R7). -/
def clamp (v lo hi : Int) : Int := if v < lo then lo else if hi < v then hi else v

/-- `v[n+7:n]`, eight bits of the two's-complement form (R6). -/
def byteAt (v : Int) (n : Nat) : Byte := BitVec.ofInt 8 (v >>> n)

/-- `v[n]`, one bit of the two's-complement form (R6). -/
def bitAt (v : Int) (n : Nat) : Bool := (v >>> n) % 2 == 1

/-- `HB(v)`: high byte first (R7, R32). Of a wider `v` it takes `v[15:0]`, which is the truncation of R61(b). -/
def HB (v : Int) : Payload := { b0 := byteAt v 8, b1 := byteAt v 0 }

/-- `LB(v)`: low byte first (R7, R32). -/
def LB (v : Int) : Payload := { b0 := byteAt v 0, b1 := byteAt v 8 }

/-- The byte whose bits are given, least significant first. -/
def byteOfBits (bits : List Bool) : Byte :=
  BitVec.ofNat 8 (bits.foldr (fun b acc => b.toNat + 2 * acc) 0)

end Sys2Proof.Machine
end

