-- ==== Sys2Proof/Syntax.lean ====
section
/-! DEFINITION. The syntax of the twelve commands of R52, one constructor per row of spec/opcode_table.json. Codec operands are
the operand words as they are presented (R50, R51); a meaning reads them as signed integers (R54). The ignored bits of R58
(`AUX` in format C, `PORT` and `AUX[15:5]` in format T) are not part of a term. -/

namespace Sys2Proof

/-- A command. `port` is the header's `PORT` field (R51), the index of the command's first slot. -/
inductive Instr where
  /-- `WRSLOT` (R84, format W): stage the raw payload `(b0, b1)`. -/
  | wrslot (port : Byte) (b0 b1 : Byte)
  /-- `VOLT` (R90). -/
  | volt (port : Byte) (v1 v2 : Word)
  /-- `CURR` (R92). -/
  | curr (port : Byte) (c v cap : Word)
  /-- `TSBS01T` (R94). -/
  | tsbs01t (port : Byte) (t : Word)
  /-- `T125` (R96). -/
  | t125 (port : Byte) (t : Word)
  /-- `RPM` (R98). -/
  | rpm (port : Byte) (rpm : Word)
  /-- `GPS1675` (R110). -/
  | gps1675 (port : Byte) (speed alt vario lat lon : Word)
  /-- `VARIO` (R116). -/
  | vario (port : Byte) (vario alt : Word)
  /-- `ESC8` (R118). -/
  | esc8 (port : Byte) (voltage capacity rpm current temp becTemp becCurrent pwm : Word)
  /-- `JETCAT` (R120). -/
  | jetcat (port : Byte) (rpm egt pumpVoltage setpointRpm thrust fuel fuelFlow altitude quality voltage current speed status
      rpm2 : Word)
  /-- `SBS10G` (R130). -/
  | sbs10g (port : Byte) (h m s lat lon alt speed vario : Word)
  /-- `TICK` (R150, format T): the six sampled inputs of R17. `now` and `elapsed` are unsigned counts of microseconds on
  `TIME_W` bits (`Instr.wf` asks for the bound). -/
  | tick (now elapsed : Nat) (page : BitVec 2) (portLive rxSerial protoSbus2 : Bool)
  deriving DecidableEq, Repr

/-- The twelve selector values that name a command (R52). -/
inductive Selector where
  | wrslot | volt | curr | tsbs01t | t125 | rpm | gps1675 | vario | esc8 | jetcat | sbs10g | tick
  deriving DecidableEq, Repr

end Sys2Proof
end

