-- ==== Sys2Proof/WellFormed.lean ====
section
/-! DEFINITION. Which terms are commands the port can carry. Every field but the two times of `TICK` has the width of its
encoding in its type, so those two are the only checks (R17, R51: `now` and `elapsed` are `TIME_W` bits unsigned). -/

namespace Sys2Proof

/-- A term the encoding of R51 admits when times are `timeW` bits wide. -/
def Instr.wf (timeW : Nat) (i : Instr) : Bool :=
  match i with
  | .wrslot _ _ _ => true
  | .volt _ _ _ => true
  | .curr _ _ _ _ => true
  | .tsbs01t _ _ => true
  | .t125 _ _ => true
  | .rpm _ _ => true
  | .gps1675 _ _ _ _ _ _ => true
  | .vario _ _ _ => true
  | .esc8 _ _ _ _ _ _ _ _ _ => true
  | .jetcat _ _ _ _ _ _ _ _ _ _ _ _ _ _ _ => true
  | .sbs10g _ _ _ _ _ _ _ _ _ => true
  | .tick now elapsed _ _ _ _ => decide (now < 2 ^ timeW) && decide (elapsed < 2 ^ timeW)

end Sys2Proof
end

