-- ==== Sys2Proof/Decode.lean ====
section
/-! DEFINITION. The decoder of the word-serial command port, total on any list of words, and after it the encoder, both written
from R50 to R59. A header's `SEL` field alone decides the command and its length (R50, R52). -/

namespace Sys2Proof

/-- Why a list of words is not a command: no word has been presented; the header's selector is reserved (R57); or the header's
operand words have not all been presented yet. -/
inductive DecodeError where
  | noHeader
  | reservedSelector (sel : Byte)
  | incomplete (sel : Selector)
  deriving DecidableEq, Repr

/-- Header bits 31:24 (R51). -/
def selField (h : Word) : Byte := h.extractLsb' 24 8
/-- Header bits 23:16 (R51). -/
def portField (h : Word) : Byte := h.extractLsb' 16 8
/-- Header bits 15:8, the first payload byte of format W (R51, R55). -/
def auxHigh (h : Word) : Byte := h.extractLsb' 8 8
/-- Header bits 7:0, the second payload byte of format W (R51, R55). -/
def auxLow (h : Word) : Byte := h.extractLsb' 0 8
/-- `AUX[1:0]`, the page of format T (R51, R56). -/
def pageField (h : Word) : BitVec 2 := h.extractLsb' 0 2

/-- The selector map of R52; every other value is reserved (R57). -/
def selectorOf (sel : Byte) : Option Selector :=
  match sel.toNat with
  | 0x01 => some .wrslot
  | 0x02 => some .volt
  | 0x03 => some .curr
  | 0x04 => some .tsbs01t
  | 0x05 => some .t125
  | 0x06 => some .rpm
  | 0x07 => some .gps1675
  | 0x08 => some .vario
  | 0x09 => some .esc8
  | 0x0A => some .jetcat
  | 0x0B => some .sbs10g
  | 0x10 => some .tick
  | _ => none

/-- How many words one time of format T takes: `ceil(TIME_W/32)` (R51). -/
def timeWords (timeW : Nat) : Nat := (timeW + 31) / 32

/-- The operand words that follow a header, a function of the selector alone (R50, R52). -/
def operandWords (timeW : Nat) : Selector → Nat
  | .wrslot => 0
  | .volt => 2
  | .curr => 3
  | .tsbs01t => 1
  | .t125 => 1
  | .rpm => 1
  | .gps1675 => 5
  | .vario => 2
  | .esc8 => 8
  | .jetcat => 14
  | .sbs10g => 8
  | .tick => 2 * timeWords timeW

/-- The first `n` words and the rest, if there are `n`. -/
def takeWords : Nat → List Word → Option (List Word × List Word)
  | 0, ws => some ([], ws)
  | _ + 1, [] => none
  | n + 1, w :: ws =>
    match takeWords n ws with
    | some (taken, rest) => some (w :: taken, rest)
    | none => none

/-- The number whose words are given, least significant word first (R51). -/
def joinWords : List Word → Nat
  | [] => 0
  | w :: ws => w.toNat + 2 ^ 32 * joinWords ws

/-- One time of format T: its words, read with `zext` on `TIME_W` bits (R51, R56, R7; entry 7). -/
def takeTime (timeW : Nat) (ws : List Word) : Option (Nat × List Word) :=
  match takeWords (timeWords timeW) ws with
  | some (taken, rest) => some (joinWords taken % 2 ^ timeW, rest)
  | none => none

/-- The command with selector `sel` and header `h`, its operands taken from the words that follow (R51, R54 to R56), and the
words after it; `none` if operand words are missing. -/
def decodeOperands (timeW : Nat) (sel : Selector) (h : Word) (ops : List Word) : Option (Instr × List Word) :=
  match sel with
  | .wrslot => some (.wrslot (portField h) (auxHigh h) (auxLow h), ops)
  | .volt =>
    match ops with
    | v1 :: v2 :: rest => some (.volt (portField h) v1 v2, rest)
    | _ => none
  | .curr =>
    match ops with
    | c :: v :: cap :: rest => some (.curr (portField h) c v cap, rest)
    | _ => none
  | .tsbs01t =>
    match ops with
    | t :: rest => some (.tsbs01t (portField h) t, rest)
    | _ => none
  | .t125 =>
    match ops with
    | t :: rest => some (.t125 (portField h) t, rest)
    | _ => none
  | .rpm =>
    match ops with
    | r :: rest => some (.rpm (portField h) r, rest)
    | _ => none
  | .gps1675 =>
    match ops with
    | speed :: alt :: vario :: lat :: lon :: rest => some (.gps1675 (portField h) speed alt vario lat lon, rest)
    | _ => none
  | .vario =>
    match ops with
    | v :: alt :: rest => some (.vario (portField h) v alt, rest)
    | _ => none
  | .esc8 =>
    match ops with
    | a :: b :: c :: d :: e :: f :: g :: k :: rest => some (.esc8 (portField h) a b c d e f g k, rest)
    | _ => none
  | .jetcat =>
    match ops with
    | a :: b :: c :: d :: e :: f :: g :: k :: l :: m :: n :: o :: p :: q :: rest =>
      some (.jetcat (portField h) a b c d e f g k l m n o p q, rest)
    | _ => none
  | .sbs10g =>
    match ops with
    | a :: b :: c :: d :: e :: f :: g :: k :: rest => some (.sbs10g (portField h) a b c d e f g k, rest)
    | _ => none
  | .tick =>
    match takeTime timeW ops with
    | none => none
    | some (now, ops') =>
      match takeTime timeW ops' with
      | none => none
      | some (elapsed, rest) =>
        some (.tick now elapsed (pageField h) (h.getLsbD 2) (h.getLsbD 3) (h.getLsbD 4), rest)

/-- The first command of a list of words, and the words after it; or, by name, why there is none. -/
def decode (timeW : Nat) (ws : List Word) : Except DecodeError (Instr × List Word) :=
  match ws with
  | [] => .error .noHeader
  | h :: ops =>
    match selectorOf (selField h) with
    | none => .error (.reservedSelector (selField h))
    | some sel =>
      match decodeOperands timeW sel h ops with
      | some r => .ok r
      | none => .error (.incomplete sel)

/-! The encoder. -/

/-- A header word: `SEL :: PORT :: AUX` (R51). -/
def header (sel port : Byte) (aux : BitVec 16) : Word := sel ++ port ++ aux

/-- The `AUX` field of format T, its unused bits written as zero (R51, R58). -/
def tickAux (page : BitVec 2) (portLive rxSerial protoSbus2 : Bool) : BitVec 16 :=
  0#11 ++ BitVec.ofBool protoSbus2 ++ BitVec.ofBool rxSerial ++ BitVec.ofBool portLive ++ page

/-- The `n` words of a number, least significant first (R51). -/
def splitWords : Nat → Nat → List Word
  | 0, _ => []
  | n + 1, v => BitVec.ofNat 32 v :: splitWords n (v / 2 ^ 32)

/-- The words of a command: its header and its operand words, ignored bits zero (R50 to R52, R58, R65). -/
def encode (timeW : Nat) (i : Instr) : List Word :=
  match i with
  | .wrslot port b0 b1 => [header 0x01 port (b0 ++ b1)]
  | .volt port v1 v2 => [header 0x02 port 0, v1, v2]
  | .curr port c v cap => [header 0x03 port 0, c, v, cap]
  | .tsbs01t port t => [header 0x04 port 0, t]
  | .t125 port t => [header 0x05 port 0, t]
  | .rpm port r => [header 0x06 port 0, r]
  | .gps1675 port speed alt vario lat lon => [header 0x07 port 0, speed, alt, vario, lat, lon]
  | .vario port v alt => [header 0x08 port 0, v, alt]
  | .esc8 port a b c d e f g k => [header 0x09 port 0, a, b, c, d, e, f, g, k]
  | .jetcat port a b c d e f g k l m n o p q => [header 0x0A port 0, a, b, c, d, e, f, g, k, l, m, n, o, p, q]
  | .sbs10g port a b c d e f g k => [header 0x0B port 0, a, b, c, d, e, f, g, k]
  | .tick now elapsed page portLive rxSerial protoSbus2 =>
    header 0x10 0 (tickAux page portLive rxSerial protoSbus2)
      :: (splitWords (timeWords timeW) now ++ splitWords (timeWords timeW) elapsed)

/-! One instruction given as a number, as spec/opcode_table.json numbers its bits. -/

/-- The words of the instruction whose `nbits` table bits are `w`, bit 0 the least significant bit of the header and later words
counting on from it; every bit above `nbits` is 0. The list is as long as the header's command (one word for a reserved one). -/
def tableWords (timeW nbits w : Nat) : List Word :=
  let bits := w % 2 ^ nbits
  let n := match selectorOf (selField (BitVec.ofNat 32 bits)) with
    | some sel => operandWords timeW sel
    | none => 0
  splitWords (n + 1) bits

/-- The instruction the decoder reads from those words, at the default `TIME_W`. -/
def decodeTableWord (nbits w : Nat) : Option Instr :=
  match decode defaultConfig.timeW (tableWords defaultConfig.timeW nbits w) with
  | .ok (i, _) => some i
  | .error _ => none

end Sys2Proof
end

