-- ==== Sys2Proof/Machine/Slots.lean ====
section
/-! DEFINITION. The one home of the slot array: every read and write of a slot goes through these two (R10, R30). -/

namespace Sys2Proof.Machine

/-- `S[i]` (R7, R10). -/
def State.slot (s : State) (i : Fin 32) : Slot := s.slots[i]

/-- `S[i] <- x`, one slot whole (R7, R36). -/
def State.setSlot (s : State) (i : Fin 32) (x : Slot) : State := { s with slots := s.slots.set i x }

end Sys2Proof.Machine
end

