-- ==== Sys2Proof/Machine/Flags.lean ====
section
/-! DEFINITION. The only flags of the block, the 32 `used` bits (R15). There are no condition codes: a codec's overflow is
resolved by saturation or truncation inside the codec and leaves no trace (R15, R172). -/

namespace Sys2Proof.Machine

/-- Staging a payload in a slot: the payload is replaced whole and `used` becomes 1 whatever the payload (R15, R45, R80);
`minNext` is untouched (R45, R81). Nothing but reset clears `used`. -/
def Slot.stage (x : Slot) (p : Payload) : Slot := { x with payload := p, used := true }

/-- Re-arming a slot after it was taken: `used` and the payload stay (R82, R154). -/
def Slot.rearm (x : Slot) (next : Nat) : Slot := { x with minNext := next }

/-- `S[idx].used = 1 and S[idx].minNext <= now`, a plain unsigned comparison (R82, R83). -/
def Slot.eligible (x : Slot) (now : Nat) : Bool := x.used && decide (x.minNext ≤ now)

end Sys2Proof.Machine
end

