-- ==== Sys2Proof/Machine/Ops.lean ====
section
/-! DEFINITION. The named operations of the machine: the silent no-op, the two accesses to the store (R80, R82), the serializer's
append (R156), the reset input (R190), and taking the next item off the command port (R50, D5). There is no exception entry and
no return from one (R170, R176, R177). -/

namespace Sys2Proof.Machine

/-- What every step answers. -/
abbrev Result := Host.Outcome State Fault Refusal

/-- `drop`: do nothing, report nothing (R7, R170). -/
def drop (s : State) : Result := .next s

/-- `StoreWrite(idx, p)`: indices 0 and 32 and above are silently dropped (R80, R34). -/
def storeWrite (s : State) (idx : Nat) (p : Payload) : State :=
  if h : 0 < idx ∧ idx < 32 then s.setSlot ⟨idx, h.2⟩ ((s.slot ⟨idx, h.2⟩).stage p)
  else s

/-- A codec's writes: payload `k` goes to `idx + k`, over the integers, each write checked on its own, in ascending `k` (R35). -/
def storeSeq (s : State) (idx : Nat) : List Payload → State
  | [] => s
  | p :: ps => storeSeq (storeWrite s idx p) (idx + 1) ps

/-- A command that stages payloads from `PORT` on and does nothing else (R88). -/
def stageAll (port : Byte) (ps : List Payload) (s : State) : Result := .next (storeSeq s port.toNat ps)

/-- A telemetry frame: `slotId`, then the two payload bytes (R31, R156). -/
structure Frame where
  slotId : Byte
  b0 : Byte
  b1 : Byte
  deriving DecidableEq, Repr

/-- The frame of slot `i` as it stands (R82). -/
def frameOf (s : State) (i : Fin 32) : Frame where
  slotId := Sys2Proof.slotId s.cfg i
  b0 := (s.slot i).payload.b0
  b1 := (s.slot i).payload.b1

/-- The slot is re-armed for `now + MIN_SPACING`, reduced modulo `2^TIME_W` (R82, R83). -/
def rearmSlot (s : State) (i : Fin 32) (now : Nat) : State :=
  s.setSlot i ((s.slot i).rearm ((now + minSpacing) % 2 ^ s.cfg.timeW))

/-- `StoreTake(idx, now)`: the frame and the re-armed store, or `none` with no state change (R82). -/
def storeTake (s : State) (i : Fin 32) (now : Nat) : Option (Frame × State) :=
  if (s.slot i).eligible now then some (frameOf s i, rearmSlot s i now) else none

/-- The serializer: the three bytes of a frame are appended to `TX`, in frame order (R31, R156). -/
def emit (s : State) (f : Frame) : State := { s with tx := s.tx ++ [f.slotId, f.b0, f.b1] }

/-- The reset input: every piece of the block's state takes its reset value (R190, R24); nothing survives but the parameters,
which are not state (R192), and what the host has still to present. -/
def applyReset (s : State) : State := { State.reset with port := s.port, cfg := s.cfg }

/-! The command port. -/

/-- The words the host presents before the next reset (or before nothing), and what comes after them. -/
def presented : List PortEvent → List Word × List PortEvent
  | .word w :: es => (w :: (presented es).1, (presented es).2)
  | es => ([], es)

/-- What the block finds at its port: a whole command; a header with a reserved selector (R57); the reset input (R190); or
nothing it can act on yet, because nothing, or only the beginning of a command, has been presented (R14; entries 1 and 8). Each
with what the port holds afterwards. -/
inductive Fetched where
  | command (i : Instr) (rest : List PortEvent)
  | reserved (rest : List PortEvent)
  | resetInput (rest : List PortEvent)
  | waiting
  deriving DecidableEq, Repr

/-- Looks at the port. A reset that comes before a command's last operand word discards the words presented so far (DESIGN
CHOICE, unsafe, entry 9). -/
def fetch (timeW : Nat) (port : List PortEvent) : Fetched :=
  match decode timeW (presented port).1 with
  | .ok (i, left) => .command i (left.map .word ++ (presented port).2)
  | .error (.reservedSelector _) => .reserved port.tail
  | .error _ =>
    match (presented port).2 with
    | .reset :: rest => .resetInput rest
    | _ => .waiting

end Sys2Proof.Machine
end

