-- ==== Sys2Proof/Machine/Block.lean ====
section
/-! DEFINITION. The multi-slot codecs `GPS1675`, `VARIO`, `ESC8` and `JETCAT` (R110 to R122). Every 16-bit field is high byte
first (R32). -/

namespace Sys2Proof.Machine

/-- `Coord1675(x)` (R113, R114): a signed coordinate in micro-degrees as a degree byte and three fraction bytes, the topmost of
which is OR-ed with `0x1F` for south or west (U4, entry 16). -/
def coord1675 (x : Int) : List Payload :=
  let deg := x.natAbs / 1000000
  let frac := x.natAbs % 1000000
  let top := BitVec.ofNat 8 (frac >>> 16)
  [{ b0 := BitVec.ofNat 8 deg, b1 := if x < 0 then top ||| 0x1F else top },
   { b0 := BitVec.ofNat 8 (frac >>> 8), b1 := BitVec.ofNat 8 frac }]

/-- `GPS1675` (R110 to R112): speed saturated to `[0x4000, 0x43E7]`, altitude OR-ed and truncated, the constant `F1675_TIME`,
vario truncated, then the two coordinates. -/
def gps1675Payloads (f1675Time : BitVec 16) (speed alt vario lat lon : Int) : List Payload :=
  [HB (clamp (orMask speed 0x4000) 0x4000 0x43E7),
   HB (orMask alt 0x4000),
   HB f1675Time.toNat,
   HB vario]
  ++ coord1675 lat ++ coord1675 lon

/-- `GPS1675 PORT, speed, alt, vario, lat, lon` (R110). -/
def execGps1675 (port : Byte) (speed alt vario lat lon : Word) (s : State) : Result :=
  stageAll port
    (gps1675Payloads s.cfg.f1675Time (sext32 speed) (sext32 alt) (sext32 vario) (sext32 lat) (sext32 lon)) s

/-- `VARIO` (R116, R117): both fields truncate. -/
def varioPayloads (vario alt : Int) : List Payload := [HB vario, HB (orMask alt 0x4000)]

/-- `VARIO PORT, vario, alt` (R116). -/
def execVario (port : Byte) (vario alt : Word) (s : State) : Result :=
  stageAll port (varioPayloads (sext32 vario) (sext32 alt)) s

/-- `ESC8` (R118, R119): nothing saturates. -/
def esc8Payloads (voltage capacity rpm current temp becTemp becCurrent pwm : Int) : List Payload :=
  [HB (orMask voltage 0x8000), HB capacity, HB (truncDiv rpm 6), HB current, HB temp, HB becTemp, HB becCurrent, HB pwm]

/-- `ESC8 PORT, voltage, …, pwm` (R118). -/
def execEsc8 (port : Byte) (voltage capacity rpm current temp becTemp becCurrent pwm : Word) (s : State) : Result :=
  stageAll port
    (esc8Payloads (sext32 voltage) (sext32 capacity) (sext32 rpm) (sext32 current) (sext32 temp) (sext32 becTemp)
      (sext32 becCurrent) (sext32 pwm)) s

/-- `JETCAT` (R120 to R122): slots 0, 3 and 13 are hundredths, saturated, slot 0 with the OR before the saturation (D27); the
others truncate, and the altitude carries no offset. -/
def jetcatPayloads (rpm egt pumpVoltage setpointRpm thrust fuel fuelFlow altitude quality voltage current speed status
    rpm2 : Int) : List Payload :=
  [HB (clamp (orMask (truncDiv rpm 100) 0x4000) 0x4000 0xFFFF),
   HB egt,
   HB pumpVoltage,
   HB (clamp (truncDiv setpointRpm 100) 0 0xFFFF),
   HB thrust, HB fuel, HB fuelFlow, HB altitude, HB quality, HB voltage, HB current, HB speed, HB status,
   HB (clamp (truncDiv rpm2 100) 0 0xFFFF)]

/-- `JETCAT PORT, rpm, …, rpm2` (R120). -/
def execJetcat (port : Byte) (rpm egt pumpVoltage setpointRpm thrust fuel fuelFlow altitude quality voltage current speed
    status rpm2 : Word) (s : State) : Result :=
  stageAll port
    (jetcatPayloads (sext32 rpm) (sext32 egt) (sext32 pumpVoltage) (sext32 setpointRpm) (sext32 thrust) (sext32 fuel)
      (sext32 fuelFlow) (sext32 altitude) (sext32 quality) (sext32 voltage) (sext32 current) (sext32 speed)
      (sext32 status) (sext32 rpm2)) s

end Sys2Proof.Machine
end

