-- ==== Sys2Proof/Machine/Gps.lean ====
section
/-! DEFINITION. The precision GPS codec `SBS10G` (R130 to R140): its six field computations, the layout that places them, and its
meaning. -/

namespace Sys2Proof.Machine

/-- The six fields of `SBS10G` (R130). -/
structure GpsFields where
  utc : Int
  lat : Int
  lon : Int
  alt : Int
  speed : Int
  vario : Int
  deriving DecidableEq, Repr

/-- A field by its name. -/
def gpsField (F : GpsFields) : GpsField → Int
  | .utc => F.utc
  | .lat => F.lat
  | .lon => F.lon
  | .alt => F.alt
  | .speed => F.speed
  | .vario => F.vario

/-- `LatLon10G(x, hemibit)` (R130, R132, R133): ten-thousandths of a minute, rounded half up, with the hemisphere bit set for
south or west (PRESUMED by the spec: the bit number, G3; unsafe, entry 6). -/
def latLon10G (x : Int) (hemibit : Nat) : Int :=
  let f := truncDiv (6 * (x.natAbs : Int) + 5) 10
  if x < 0 then orMask f (2 ^ hemibit) else f

/-- R134: valid in `[-82000, 483000]` cm, else 0. -/
def alt10G (alt : Int) : Int := if -82000 ≤ alt ∧ alt ≤ 483000 then truncDiv (alt + 82040) 80 else 0

/-- R135: the enable bit `0x200` above a speed below 512, else 0. -/
def speed10G (speed : Int) : Int := if 0 ≤ speed ∧ speed < 512 then orMask speed 0x200 else 0

/-- R136: valid in `[-15000, 26000]` cm/s, with the enable bit `0x1000`, else 0. -/
def vario10G (vario : Int) : Int :=
  if -15000 ≤ vario ∧ vario ≤ 26000 then orMask (truncDiv (vario + 15005) 10) 0x1000 else 0

/-- The field computations of R130, R131 to R136. -/
def gpsFields (h m s lat lon alt speed vario : Int) : GpsFields where
  utc := h * 3600 + m * 60 + s
  lat := latLon10G lat 26
  lon := latLon10G lon 27
  alt := alt10G alt
  speed := speed10G speed
  vario := vario10G vario

/-- The payload bit a decision tree gives (D19, entry 5). -/
def sourceBit (F : GpsFields) : BitSource → Bool
  | .const b => b
  | .test f n ifSet ifClear => if bitAt (gpsField F f) n then sourceBit F ifSet else sourceBit F ifClear

/-- Payload byte `j` (0 to 15) under a layout (R137). -/
def layoutByte (layout : Layout) (F : GpsFields) (j : Fin 16) : Byte :=
  byteOfBits ((List.finRange 8).map fun i => sourceBit F layout[j][i])

/-- `SBS10G_LAYOUT(F)`: the eight payloads, `p_k = (byte 2k, byte 2k+1)` (R137). -/
def layoutPayloads (layout : Layout) (F : GpsFields) : List Payload :=
  (List.finRange 8).map fun k =>
    { b0 := layoutByte layout F ⟨2 * k.val, by omega⟩, b1 := layoutByte layout F ⟨2 * k.val + 1, by omega⟩ }

/-- `SBS10G PORT, h, m, s, lat, lon, alt, speed, vario` (R130). -/
def execSbs10g (port : Byte) (h m sec lat lon alt speed vario : Word) (s : State) : Result :=
  stageAll port
    (layoutPayloads s.cfg.layout
      (gpsFields (sext32 h) (sext32 m) (sext32 sec) (sext32 lat) (sext32 lon) (sext32 alt) (sext32 speed) (sext32 vario))) s

end Sys2Proof.Machine
end

