-- ==== Sys2Proof/Machine/Scalar.lean ====
section
/-! DEFINITION. The codecs for battery, temperature and rpm (R88 to R99): for each, its payloads as a function of its integer
operands, then its meaning. -/

namespace Sys2Proof.Machine

/-- `VOLT` (R90, R91): slot 0 is the OR with `0x8000` saturated to `[0x8000, 0x9FFF]`, slot 1 is saturated to 13 bits (C2). -/
def voltPayloads (v1 v2 : Int) : List Payload :=
  [HB (clamp (orMask v1 0x8000) 0x8000 0x9FFF),
   HB (andMask (clamp v2 0 0x1FFF) 0x1FFF)]

/-- `VOLT PORT, v1, v2` (R90). -/
def execVolt (port : Byte) (v1 v2 : Word) (s : State) : Result :=
  stageAll port (voltPayloads (sext32 v1) (sext32 v2)) s

/-- `CURR` slot 0 (R92, R93): a 14-bit magnitude whose high byte carries the control bit `0x40`. -/
def currentPayload (c : Int) : Payload :=
  let m := clamp c 0 0x3FFF
  { b0 := byteAt (andMask (orMask (m >>> 8) 0x40) 0x7F) 0, b1 := byteAt m 0 }

/-- `CURR` (R92, C4): current, voltage, capacity. -/
def currPayloads (c v cap : Int) : List Payload := [currentPayload c, HB v, HB cap]

/-- `CURR PORT, c, v, cap` (R92). -/
def execCurr (port : Byte) (c v cap : Word) (s : State) : Result :=
  stageAll port (currPayloads (sext32 c) (sext32 v) (sext32 cap)) s

/-- `TSBS01T` (R94, R95, C6): OR, then add 100, then truncate; low byte first. -/
def tsbs01tPayloads (t : Int) : List Payload := [LB (orMask t 0x8000 + 100)]

/-- `TSBS01T PORT, t` (R94). -/
def execTsbs01t (port : Byte) (t : Word) (s : State) : Result :=
  stageAll port (tsbs01tPayloads (sext32 t)) s

/-- `T125` (R96, R97): OR with `0x4000`, truncated; high byte first. -/
def t125Payloads (t : Int) : List Payload := [HB (orMask t 0x4000)]

/-- `T125 PORT, t` (R96). -/
def execT125 (port : Byte) (t : Word) (s : State) : Result :=
  stageAll port (t125Payloads (sext32 t)) s

/-- `RPM` (R98, R99): a sixth of the speed, saturated to 16 bits; low byte first. -/
def rpmPayloads (rpm : Int) : List Payload := [LB (clamp (truncDiv rpm 6) 0 0xFFFF)]

/-- `RPM PORT, rpm` (R98). -/
def execRpm (port : Byte) (rpm : Word) (s : State) : Result :=
  stageAll port (rpmPayloads (sext32 rpm)) s

end Sys2Proof.Machine
end

