-- ==== Sys2Proof/Machine/Store.lean ====
section
/-! DEFINITION. `WRSLOT`, the command form of the store's own write (R84). -/

namespace Sys2Proof.Machine

/-- `WRSLOT PORT, b0, b1` (R84): the raw payload is staged in slot `PORT`. -/
def execWrslot (port : Byte) (b0 b1 : Byte) (s : State) : Result :=
  stageAll port [{ b0 := b0, b1 := b1 }] s

end Sys2Proof.Machine
end

