-- ==== Sys2Proof/Machine/Scheduler.lean ====
section
/-! DEFINITION. The slot-scheduler comparator `resolveSlot`, the pure function inside `TICK` (R70 to R77). -/

namespace Sys2Proof.Machine

/-- `(r - 1)[7:0]` (R72): the remainder less one on 8 bits, so that 0 gives 255. -/
def slot8 (r : Nat) : Nat := (r + 255) % 256

/-- `resolveSlot(elapsed)` (R70), step by step: the dead time (R71), the 8-bit slot with 255 meaning none (R72, C1, C7; entry
15), the lateness test with a negative offset rejected (R73), and the range of the result (R74). -/
def resolveSlot (elapsed : Nat) : Option (Fin 8) :=
  if elapsed < deadTime then none
  else
    let e := elapsed - deadTime
    let slot := slot8 (e % slotTime)
    if slot = 255 then none
    else if e < slot * slotTime then none
    else if slotDelayMax < e - slot * slotTime then none
    else if h : slot < 8 then some ⟨slot, h⟩
    else none

end Sys2Proof.Machine
end

