-- ==== Sys2Proof/Machine/Transmit.lean ====
section
/-! DEFINITION. The transmit path and the frame serializer: `TICK` (R150 to R160), and the labels of R171 for the five ways it
does nothing. -/

namespace Sys2Proof.Machine

/-- `page*8 + slot` (R39, R153). -/
def globalIndex (page : BitVec 2) (slot : Fin 8) : Fin 32 :=
  ⟨page.toNat * slotsPerPage + slot.val, by have := page.isLt; have := slot.isLt; simp only [slotsPerPage]; omega⟩

/-- `TICK now, elapsed, page, port_live, rx_serial, proto_sbus2` (R150): the chain of early returns, then the frame. Every tick
that fails a check leaves the state as it found it (R159). -/
def execTick (now elapsed : Nat) (page : BitVec 2) (portLive rxSerial protoSbus2 : Bool) (s : State) : Result :=
  if !(portLive && rxSerial && protoSbus2) then drop s
  else if staleMax < elapsed then drop s
  else
    match resolveSlot elapsed with
    | none => drop s
    | some slot =>
      match storeTake s (globalIndex page slot) now with
      | none => drop s
      | some (f, t) => .next (emit t f)

/-- The labels R171 gives the conditions under which a tick does nothing. They are for claims and tests: no state records them
(R172). -/
inductive TickLabel where
  | notEnabled | stale | noWindow | notUsed | tooSoon
  deriving DecidableEq, Repr

/-- The first condition of R171 that holds of a tick, in the order of R175; `none` when it sends. -/
def tickLabel (now elapsed : Nat) (page : BitVec 2) (portLive rxSerial protoSbus2 : Bool) (s : State) : Option TickLabel :=
  if !(portLive && rxSerial && protoSbus2) then some .notEnabled
  else if staleMax < elapsed then some .stale
  else
    match resolveSlot elapsed with
    | none => some .noWindow
    | some slot =>
      if !(s.slot (globalIndex page slot)).used then some .notUsed
      else if now < (s.slot (globalIndex page slot)).minNext then some .tooSoon
      else none

end Sys2Proof.Machine
end

