-- ==== Sys2Proof/Machine/Dispatch.lean ====
section
/-! DEFINITION. One arm per command of R52, each one call of its meaning. -/

namespace Sys2Proof.Machine

def exec (i : Instr) (s : State) : Host.Outcome State Fault Refusal :=
  match i with
  | .wrslot port b0 b1 => Sys2Proof.Machine.execWrslot port b0 b1 s
  | .volt port v1 v2 => Sys2Proof.Machine.execVolt port v1 v2 s
  | .curr port c v cap => Sys2Proof.Machine.execCurr port c v cap s
  | .tsbs01t port t => Sys2Proof.Machine.execTsbs01t port t s
  | .t125 port t => Sys2Proof.Machine.execT125 port t s
  | .rpm port r => Sys2Proof.Machine.execRpm port r s
  | .gps1675 port speed alt vario lat lon => Sys2Proof.Machine.execGps1675 port speed alt vario lat lon s
  | .vario port v alt => Sys2Proof.Machine.execVario port v alt s
  | .esc8 port a b c d e f g k => Sys2Proof.Machine.execEsc8 port a b c d e f g k s
  | .jetcat port a b c d e f g k l m n o p q => Sys2Proof.Machine.execJetcat port a b c d e f g k l m n o p q s
  | .sbs10g port h m sec lat lon alt speed vario => Sys2Proof.Machine.execSbs10g port h m sec lat lon alt speed vario s
  | .tick now elapsed page live rx sbus2 => Sys2Proof.Machine.execTick now elapsed page live rx sbus2 s

end Sys2Proof.Machine
end

