-- ==== Sys2Proof/Machine/Step.lean ====
section
/-! DEFINITION. One step: one whole command, or one application of the reset input (D1, R36, R42). -/

namespace Sys2Proof.Machine

/-- One step. A command is taken off the port whole and executed; a reserved selector is a one-word silent no-op (R57); the reset
input takes effect whenever it is applied (R190, R191); with nothing to act on the block waits (R14; entries 1 and 8). -/
def step (s : State) : Host.Outcome State Fault Refusal :=
  match fetch s.cfg.timeW s.port with
  | .command i rest => exec i { s with port := rest }
  | .reserved rest => drop { s with port := rest }
  | .resetInput rest => .next (applyReset { s with port := rest })
  | .waiting => drop s

/-- `s`, with the host presenting the instruction of table bits `w` next, before whatever it presents already (entry 1). -/
def State.withFetchWord (s : State) (nbits w : Nat) : State :=
  { s with port := (tableWords s.cfg.timeW nbits w).map .word ++ s.port }

end Sys2Proof.Machine
end

