-- ==== Sys2Proof/Machine/Adapters.lean ====
section
/-! DEFINITION. The host's side of the command port, which is no part of the machine's step: the assembler's `TICK` line (R65),
the pseudo-instructions of R66 and R67, and the collector's conventional slot map (R41). The scope file leaves the adapter layer
out of the block (R3); it is modelled here as the function from a pseudo-instruction to the words it presents (entry 17). -/

namespace Sys2Proof.Machine

/-- `TICK now, elapsed, page, en` (R65): `en` is a 3-bit number, `port_live` its low bit. The default of R65 is `en = 7`. -/
def asmTick (now elapsed : Nat) (page : BitVec 2) (en : BitVec 3 := 7) : Instr :=
  .tick now elapsed page (en.getLsbD 0) (en.getLsbD 1) (en.getLsbD 2)

/-- The pseudo-instructions. A `Rat` is the exact real value the host holds; an `Int` or a `Word` is an integer it holds already. -/
inductive Pseudo where
  /-- `ESC.SCORPION` (R66). -/
  | escScorpion (port : Byte) (voltage capacity rpm current temp becTemp becCurrent pwm : Word)
  /-- `ESC.KONTRONIK` (R66). -/
  | escKontronik (port : Byte) (voltage capacity rpm current temp becTemp becCurrent pwm : Word)
  /-- `NOP` (R66). -/
  | nop
  /-- `VOLT.V`: volts (R67). -/
  | voltV (port : Byte) (v1 v2 : Rat)
  /-- `CURR.A`: amperes, volts, milliampere-hours (R67). -/
  | currA (port : Byte) (amps volts mAh : Rat)
  /-- `VARIO.X10` (R67). -/
  | varioX10 (port : Byte) (vario alt : Rat)
  /-- `VARIO.X100` (R67). -/
  | varioX100 (port : Byte) (vario alt : Rat)
  /-- `GPS1675.DEG`: decimal degrees (R67). -/
  | gpsDeg (port : Byte) (speed alt vario lat lon : Rat)
  /-- `GPS1675.DM`: degrees and decimal minutes (R67). -/
  | gpsDm (port : Byte) (speed alt vario latD latMin lonD lonMin : Rat)
  /-- `GPS1675.DMI`: degrees and ten-thousandths of a minute (R67). -/
  | gpsDmi (port : Byte) (speed alt vario latD latMinE4 lonD lonMinE4 : Rat)
  /-- `GPS1675.E7`: degrees times `10^7` (R67). -/
  | gpsE7 (port : Byte) (speed alt vario latE7 lonE7 : Rat)
  /-- `SBS10G.DEG` (R67). -/
  | sbs10gDeg (port : Byte) (h m s : Int) (lat lon altM : Rat) (speed : Int) (vario : Rat)
  deriving DecidableEq, Repr

/-- The default `ADAPTER_ROUND`: toward zero (R5, R67, D25). -/
def roundTowardZero (x : Rat) : Int := x.num.tdiv x.den

/-- The operand word of an integer; an integer that no 32-bit word holds has none (R54; entry 17). -/
def operandWord (v : Int) : Option Word :=
  if -2 ^ 31 ≤ v ∧ v < 2 ^ 31 then some (BitVec.ofInt 32 v) else none

/-- A header and the operand words of the integers given, if each has one. -/
def codecWords (sel port : Byte) (vs : List Int) : Option (List Word) :=
  (vs.mapM operandWord).map fun ws => header sel port 0 :: ws

/-- The words a pseudo-instruction presents, `Q` being the host's rounding `ADAPTER_ROUND` (R66, R67). The degree-and-minute
forms are refused for a negative component (R67, U7). -/
def expandPseudo (Q : Rat → Int) : Pseudo → Option (List Word)
  | .escScorpion port a b c d e f g k => some (encode 32 (.esc8 port a b c d e f g k))
  | .escKontronik port a b c d e f g k => some (encode 32 (.esc8 port a b c d e f g k))
  | .nop => some [0]
  | .voltV port v1 v2 => codecWords 0x02 port [Q (v1 * 10), Q (v2 * 10)]
  | .currA port amps volts mAh => codecWords 0x03 port [Q (amps * 100), Q (volts * 100), Q mAh]
  | .varioX10 port vario alt => codecWords 0x08 port [Q (vario * 10), Q alt]
  | .varioX100 port vario alt => codecWords 0x08 port [Q (vario * 100), Q alt]
  | .gpsDeg port speed alt vario lat lon =>
    codecWords 0x07 port [Q speed, Q alt, Q (vario * 10), Q (lat * 10 ^ 6), Q (lon * 10 ^ 6)]
  | .gpsDm port speed alt vario latD latMin lonD lonMin =>
    if 0 ≤ latD ∧ 0 ≤ latMin ∧ 0 ≤ lonD ∧ 0 ≤ lonMin then
      codecWords 0x07 port
        [Q speed, Q alt, Q (vario * 10), Q ((latD + latMin / 60) * 10 ^ 6), Q ((lonD + lonMin / 60) * 10 ^ 6)]
    else none
  | .gpsDmi port speed alt vario latD latMinE4 lonD lonMinE4 =>
    if 0 ≤ latD ∧ 0 ≤ latMinE4 ∧ 0 ≤ lonD ∧ 0 ≤ lonMinE4 then
      codecWords 0x07 port
        [Q speed, Q alt, Q (vario * 10), Q (latD * 10 ^ 6 + latMinE4 * 100 / 60), Q (lonD * 10 ^ 6 + lonMinE4 * 100 / 60)]
    else none
  | .gpsE7 port speed alt vario latE7 lonE7 =>
    codecWords 0x07 port [Q speed, Q alt, Q (vario * 10), Q (latE7 / 10), Q (lonE7 / 10)]
  | .sbs10gDeg port h m s lat lon altM speed vario =>
    codecWords 0x0B port [h, m, s, Q (lat * 10 ^ 6), Q (lon * 10 ^ 6), Q (altM * 100), speed, Q (vario * 100)]

/-- The collector's "fixed, hardwired slot assignment" as pairs of a port and its number of slots (R41). It is a convention of
the host software; the block accepts any codec at any port. -/
def collectorMap : List (Nat × Nat) :=
  [(1, 2), (3, 3), (6, 1), (7, 1), (8, 8), (16, 1), (17, 1)] ++ (List.range 8).map fun k => (18 + k, 1)

end Sys2Proof.Machine
end

