-- ==== Sys2Proof/Safety.lean ====
section
/-! DEFINITION. What counts as a safe run, in the terms the claims use: how a staging command changes the state, the invariant of
every reachable state (R23), where the bytes of `TX` come from (R23(c)), and when the block may speak (R77). -/

namespace Sys2Proof.Machine

/-- The payload that writing the list `ps` from index `idx` on leaves in slot `j`, if one of the writes reaches it (R35, R80). -/
def writtenAt (idx : Nat) (ps : List Payload) (j : Fin 32) : Option Payload :=
  if 0 < j.val ∧ idx ≤ j.val then ps[j.val - idx]? else none

/-- `t` is `s` after a command that stages `ps` from `idx` on and does nothing else (R35, R88): each slot in `1..31` the list
reaches holds its payload, is `used`, and keeps its `minNext`; every other slot, `TX`, what the host still presents and the
parameters are as before. -/
def StagesFrom (s t : State) (idx : Nat) (ps : List Payload) : Prop :=
  (∀ j : Fin 32, t.slot j =
    match writtenAt idx ps j with
    | some p => { payload := p, used := true, minNext := (s.slot j).minNext }
    | none => s.slot j)
  ∧ t.tx = s.tx ∧ t.port = s.port ∧ t.cfg = s.cfg

/-- The port and the payloads a command stages; `none` for `TICK`, which stages nothing (R13). -/
def stagedBy (c : Config) : Instr → Option (Nat × List Payload)
  | .wrslot port b0 b1 => some (port.toNat, [{ b0 := b0, b1 := b1 }])
  | .volt port v1 v2 => some (port.toNat, voltPayloads (sext32 v1) (sext32 v2))
  | .curr port a b d => some (port.toNat, currPayloads (sext32 a) (sext32 b) (sext32 d))
  | .tsbs01t port t => some (port.toNat, tsbs01tPayloads (sext32 t))
  | .t125 port t => some (port.toNat, t125Payloads (sext32 t))
  | .rpm port r => some (port.toNat, rpmPayloads (sext32 r))
  | .gps1675 port speed alt vario lat lon =>
    some (port.toNat,
      gps1675Payloads c.f1675Time (sext32 speed) (sext32 alt) (sext32 vario) (sext32 lat) (sext32 lon))
  | .vario port v alt => some (port.toNat, varioPayloads (sext32 v) (sext32 alt))
  | .esc8 port x0 x1 x2 x3 x4 x5 x6 x7 =>
    some (port.toNat,
      esc8Payloads (sext32 x0) (sext32 x1) (sext32 x2) (sext32 x3) (sext32 x4) (sext32 x5) (sext32 x6) (sext32 x7))
  | .jetcat port x0 x1 x2 x3 x4 x5 x6 x7 x8 x9 x10 x11 x12 x13 =>
    some (port.toNat,
      jetcatPayloads (sext32 x0) (sext32 x1) (sext32 x2) (sext32 x3) (sext32 x4) (sext32 x5) (sext32 x6) (sext32 x7)
        (sext32 x8) (sext32 x9) (sext32 x10) (sext32 x11) (sext32 x12) (sext32 x13))
  | .sbs10g port h m sec lat lon alt speed vario =>
    some (port.toNat,
      layoutPayloads c.layout
        (gpsFields (sext32 h) (sext32 m) (sext32 sec) (sext32 lat) (sext32 lon) (sext32 alt) (sext32 speed)
          (sext32 vario)))
  | .tick _ _ _ _ _ _ => none

/-- The payload a command stages in slot `j`, if any. -/
def stagesSlot (c : Config) (i : Instr) (j : Fin 32) : Option Payload :=
  match stagedBy c i with
  | some (idx, ps) => writtenAt idx ps j
  | none => none

/-! Invariants of every reachable state (R23). -/

/-- The bytes of `TX` fall into groups of three whose first is the identifier of one of the slots 1 to 31 (R23(c)). -/
def txFramed (c : Config) : List Byte → Bool
  | [] => true
  | sid :: _ :: _ :: rest => (List.finRange 32).any (fun i => decide (0 < i.val) && sid == slotId c i) && txFramed c rest
  | _ => false

/-- R23 with the widths of R11: the parameters are admitted (R5); slot 0 is not `used` (a); an unused slot holds its reset values
(b); `TX` is a sequence of frames (c); and every `minNext` is a `TIME_W`-bit number. -/
structure State.Inv (s : State) : Prop where
  params : s.cfg.wf
  slotZero : (s.slot 0).used = false
  unusedClean : ∀ i : Fin 32, (s.slot i).used = false → s.slot i = resetSlot
  framed : txFramed s.cfg s.tx = true
  timeWidth : ∀ i : Fin 32, (s.slot i).minNext < 2 ^ s.cfg.timeW

/-! Where the bytes of `TX` come from (the rest of R23(c)). A history is the list of all slot writes since reset. -/

/-- The writes of a command that reach a slot. -/
def writesOf (c : Config) (i : Instr) : List (Fin 32 × Payload) :=
  (List.finRange 32).filterMap fun j => (stagesSlot c i j).map fun p => (j, p)

/-- The history after the step that `s` takes: a command adds its writes, the reset input starts it anew. -/
def historyAfter (hist : List (Fin 32 × Payload)) (s : State) : List (Fin 32 × Payload) :=
  match fetch s.cfg.timeW s.port with
  | .command i _ => hist ++ writesOf s.cfg i
  | .resetInput _ => []
  | _ => hist

/-- Every aligned group of three bytes is `(SLOT_ID[i], b0, b1)` for some `i` in 1..31 and a payload some write of the history
staged in slot `i` (R23(c)). -/
def framesFrom (c : Config) (hist : List (Fin 32 × Payload)) : List Byte → Prop
  | [] => True
  | sid :: b0 :: b1 :: rest =>
    (∃ i : Fin 32, 0 < i.val ∧ sid = slotId c i ∧ (i, { b0 := b0, b1 := b1 }) ∈ hist) ∧ framesFrom c hist rest
  | _ => False

/-- The history accounts for the state: slot 0 is unused, every used slot holds a payload that was staged in it, and `TX` holds
only frames of staged payloads. -/
structure AccountsFor (hist : List (Fin 32 × Payload)) (s : State) : Prop where
  slotZero : (s.slot 0).used = false
  staged : ∀ i : Fin 32, (s.slot i).used = true → (i, (s.slot i).payload) ∈ hist
  sent : framesFrom s.cfg hist s.tx

/-! Several commands in a row. -/

/-- The commands of a list, executed in order. -/
def execAll : List Instr → State → Result
  | [], s => .next s
  | i :: is, s =>
    match exec i s with
    | .next t => execAll is t
    | .fault r => .fault r
    | .refused r => .refused r

/-! When the block may speak. -/

/-- The early half of the `q`-th 650 microsecond interval after the dead time (R77). -/
def inWindow (elapsed : Nat) (q : Fin 8) : Prop :=
  deadTime + slotTime * q.val ≤ elapsed ∧ elapsed ≤ deadTime + slotTime * q.val + slotDelayMax

end Sys2Proof.Machine
end

