-- ==== Sys2Proof/Certificates/Slice0/Obligations.lean ====
section
/-! DEFINITION. The statements for the provers, from the numbered rules of spec/. A statement over all states is a statement over
all values of the open parameters, which the state carries (entry 2). -/

open Sys2Proof Sys2Proof.Machine

/-! ## Encoding -/

/-- The examples of R65 and of spec/95_test_vectors.md, at the default `TIME_W`: each list of words is the command it encodes. -/
def Obligations.SampleWordsDecode : Prop :=
  decode 32 [0x01069808] = .ok (.wrslot 6 0x98 0x08, [])
  ∧ decode 32 [0x02010000, 0x000000A5, 0x0000007B] = .ok (.volt 1 165 123, [])
  ∧ decode 32 [0x03030000, 0x000004D2, 0x00000672, 0x00000898] = .ok (.curr 3 1234 1650 2200, [])
  ∧ decode 32 [0x05070000, 0xFFFFFFEC] = .ok (.t125 7 (-20), [])
  ∧ decode 32 [0x07080000, 0x00000078, 0x0000015E, 0xFFFFFFF1, 0x03216781, 0x00CC9C96]
      = .ok (.gps1675 8 120 350 (-15) 52520833 13409430, [])
  ∧ decode 32 [0x1000001C, 0x000F4240, 0x00000A5C] = .ok (.tick 1000000 2652 0 true true true, [])
  ∧ decode 32 [0x10000019, 0x0000C350, 0x00000A5C] = .ok (.tick 50000 2652 1 false true true, [])

/-- One step takes one whole command off the port and executes it (R36, R50; D1): whenever the port begins with words that decode
to `i`, the step is `exec i` at the same state with what is left after those words still to be presented. -/
def Obligations.StepRunsDecodedCommand : Prop :=
  ∀ (s : State) (ws rest : List Word) (i : Instr) (es : List PortEvent),
    decode s.cfg.timeW ws = .ok (i, rest) →
    s.port = ws.map .word ++ es →
    step s = exec i { s with port := rest.map .word ++ es }

/-- Decoding the encoding of any command gives it back, at every `TIME_W`, whatever words follow (R50 to R56). -/
def Obligations.DecodeOfEncode : Prop :=
  ∀ (timeW : Nat) (i : Instr) (rest : List Word),
    i.wf timeW = true → decode timeW (encode timeW i ++ rest) = .ok (i, rest)

/-- Encoding a decoded command gives its words back with the ignored bits of R58 cleared: `AUX` in format C, `PORT` and `AUX[15:5]`
in format T, nothing in format W; and every decoded command is well formed. -/
def Obligations.EncodeOfDecode : Prop :=
  ∀ (h : Word) (ops rest : List Word) (i : Instr),
    decode 32 (h :: ops) = .ok (i, rest) →
    i.wf 32 = true ∧
    ∃ operands, ops = operands ++ rest ∧
      encode 32 i =
        (if selField h = 0x01 then h else if selField h = 0x10 then h &&& 0xFF00001F else h &&& 0xFFFF0000) :: operands

/-- R57: exactly the selectors 0x00, 0x0C to 0x0F and 0x11 to 0xFF are reserved, and a header with a reserved selector is one word
that does nothing. -/
def Obligations.ReservedSelectorDoesNothing : Prop :=
  (∀ sel : Byte, selectorOf sel = none ↔
    sel.toNat = 0 ∨ (0x0C ≤ sel.toNat ∧ sel.toNat ≤ 0x0F) ∨ 0x11 ≤ sel.toNat)
  ∧ ∀ (s : State) (h : Word) (es : List PortEvent),
      s.port = .word h :: es →
      ((selField h).toNat = 0 ∨ (0x0C ≤ (selField h).toNat ∧ (selField h).toNat ≤ 0x0F) ∨ 0x11 ≤ (selField h).toNat) →
      step s = .next { s with port := es }

/-- R58: the block does not look at `AUX` in format C, nor at `PORT` and `AUX[15:5]` in format T, and the encoder writes them as
zero. -/
def Obligations.IgnoredHeaderBits : Prop :=
  (∀ (timeW : Nat) (h h' : Word) (ops : List Word),
    selField h = selField h' →
    0x02 ≤ (selField h).toNat → (selField h).toNat ≤ 0x0B →
    portField h = portField h' →
    decode timeW (h :: ops) = decode timeW (h' :: ops))
  ∧ (∀ (timeW : Nat) (h h' : Word) (ops : List Word),
    selField h = selField h' → selField h = 0x10 →
    h.extractLsb' 0 5 = h'.extractLsb' 0 5 →
    decode timeW (h :: ops) = decode timeW (h' :: ops))
  ∧ ∀ (timeW : Nat) (i : Instr) (h : Word) (ops : List Word),
    encode timeW i = h :: ops →
    (selField h ≠ 0x01 → selField h ≠ 0x10 → h.extractLsb' 0 16 = 0)
    ∧ (selField h = 0x10 → portField h = 0 ∧ h.extractLsb' 5 11 = 0)

/-- R59 at the default `TIME_W`: a command takes 1, 2, 3, 4, 6, 9 or 15 words, fixed by its selector. -/
def Obligations.CommandLengths : Prop :=
  ∀ (h : Word) (ops rest : List Word) (i : Instr),
    decode 32 (h :: ops) = .ok (i, rest) →
    ∃ n, ((selField h).toNat, n) ∈
        [(0x01, 1), (0x02, 3), (0x03, 4), (0x04, 2), (0x05, 2), (0x06, 2), (0x07, 6), (0x08, 3), (0x09, 9), (0x0A, 15),
         (0x0B, 9), (0x10, 3)]
      ∧ 1 + ops.length = n + rest.length

/-- The model's choice (entries 1 and 8): with nothing presented, or only the beginning of a command, the block waits and its state
is unchanged (R14: it "waits for the next"). -/
def Obligations.WaitsForAWholeCommand : Prop :=
  ∀ s : State,
    (s.port = [] → step s = .next s)
    ∧ ∀ (ws : List Word) (sel : Selector),
        s.port = ws.map .word → decode s.cfg.timeW ws = .error (.incomplete sel) → step s = .next s

/-- The model's choice (entry 9): a reset that comes before a command's last operand word discards the words presented so far; the
step is the reset and nothing of the command takes effect. -/
def Obligations.ResetDiscardsAnIncompleteCommand : Prop :=
  ∀ (s : State) (ws : List Word) (sel : Selector) (es : List PortEvent),
    s.port = ws.map .word ++ .reset :: es → decode s.cfg.timeW ws = .error (.incomplete sel) →
    ∃ t, step s = .next t ∧ (∀ i, t.slot i = { payload := { b0 := 0, b1 := 0 }, used := false, minNext := 0 })
      ∧ t.tx = [] ∧ t.cfg = s.cfg ∧ t.port = es

/-! ## Reset -/

/-- R24: the machine right after reset. -/
def Obligations.ResetStateValues : Prop :=
  (∀ i : Fin 32, (State.reset.slot i).used = false
    ∧ (State.reset.slot i).payload = { b0 := 0x00, b1 := 0x00 }
    ∧ (State.reset.slot i).minNext = 0)
  ∧ State.reset.tx = []

/-- R24, R192: the reset input, whenever it is applied, puts every piece of state at its reset value; nothing of the block's state
survives, and the parameters are the same before and after. -/
def Obligations.ResetInputRestoresEveryValue : Prop :=
  ∀ (s : State) (es : List PortEvent),
    s.port = .reset :: es →
    ∃ t, step s = .next t
      ∧ (∀ i : Fin 32, (t.slot i).used = false ∧ (t.slot i).payload = { b0 := 0x00, b1 := 0x00 } ∧ (t.slot i).minNext = 0)
      ∧ t.tx = [] ∧ t.cfg = s.cfg ∧ t.port = es

/-! ## The store -/

/-- R80: a write to index 0 or to an index of 32 or more changes nothing; any other write replaces that slot's payload, sets its
`used`, and changes nothing else. -/
def Obligations.StoreWriteIsBoundsChecked : Prop :=
  ∀ (s : State) (p : Payload),
    (∀ idx : Nat, idx = 0 ∨ 32 ≤ idx → storeWrite s idx p = s)
    ∧ ∀ j : Fin 32, 0 < j.val →
        (storeWrite s j.val p).slot j = { payload := p, used := true, minNext := (s.slot j).minNext }
        ∧ (∀ k : Fin 32, k ≠ j → (storeWrite s j.val p).slot k = s.slot k)
        ∧ (storeWrite s j.val p).tx = s.tx ∧ (storeWrite s j.val p).port = s.port ∧ (storeWrite s j.val p).cfg = s.cfg

/-- R82: a take succeeds exactly when the slot is `used` and its `minNext` is at most `now`; it answers the frame and re-arms
`minNext` modulo `2^TIME_W`, and changes nothing else. -/
def Obligations.StoreTakeAnswersAndRearms : Prop :=
  ∀ (s : State) (i : Fin 32) (now : Nat),
    ((s.slot i).used = true ∧ (s.slot i).minNext ≤ now →
      ∃ t, storeTake s i now =
          some ({ slotId := slotId s.cfg i, b0 := (s.slot i).payload.b0, b1 := (s.slot i).payload.b1 }, t)
        ∧ t.slot i = { s.slot i with minNext := (now + 1000) % 2 ^ s.cfg.timeW }
        ∧ (∀ k : Fin 32, k ≠ i → t.slot k = s.slot k)
        ∧ t.tx = s.tx ∧ t.port = s.port ∧ t.cfg = s.cfg)
    ∧ (¬ ((s.slot i).used = true ∧ (s.slot i).minNext ≤ now) → storeTake s i now = none)

/-- R37: a write is idempotent; a take is not: where `now + 1000` does not wrap, the same take again fails. -/
def Obligations.WritesRepeatAndTakesDoNot : Prop :=
  (∀ (s : State) (idx : Nat) (p : Payload), storeWrite (storeWrite s idx p) idx p = storeWrite s idx p)
  ∧ ∀ (s t : State) (i : Fin 32) (now : Nat) (f : Frame),
      storeTake s i now = some (f, t) → now + 1000 < 2 ^ s.cfg.timeW → storeTake t i now = none

/-- R85, where `t + 1000` does not wrap: after a write to a slot whose `minNext` is 0, as after reset, a take at any `t` returns the
payload, every take before `t + 1000` is denied, and the take at `t + 1000` returns the payload again. -/
def Obligations.TakeReturnsOncePerSpacing : Prop :=
  ∀ (s : State) (i : Fin 32) (p : Payload) (t : Nat),
    0 < i.val → (s.slot i).minNext = 0 → t + 1000 < 2 ^ s.cfg.timeW →
    ∃ u, storeTake (storeWrite s i.val p) i t = some ({ slotId := slotId s.cfg i, b0 := p.b0, b1 := p.b1 }, u)
      ∧ (∀ t', t ≤ t' → t' < t + 1000 → storeTake u i t' = none)
      ∧ ∃ v, storeTake u i (t + 1000) = some ({ slotId := slotId s.cfg i, b0 := p.b0, b1 := p.b1 }, v)

/-- R86, for every command: if `S[0]` is not `used`, then no command changes anything of `S[0]`; in particular its `used` stays 0. -/
def Obligations.SlotZeroIsNeverWritten : Prop :=
  ∀ (i : Instr) (s t : State),
    (s.slot 0).used = false → exec i s = .next t → t.slot 0 = s.slot 0 ∧ (t.slot 0).used = false

/-- R15, R23(d): no command clears a `used` bit, and a command that stages a slot sets it. -/
def Obligations.UsedIsNeverCleared : Prop :=
  ∀ (i : Instr) (s t : State) (j : Fin 32),
    exec i s = .next t →
    ((s.slot j).used = true → (t.slot j).used = true)
    ∧ (∀ p, stagesSlot s.cfg i j = some p → (t.slot j).used = true ∧ (t.slot j).payload = p)

/-- R13, R179: a command other than `TICK` writes no `minNext` and nothing on `TX`; `TICK` writes no payload and no `used`; no
command changes what the host still presents or the parameters. -/
def Obligations.RolesWriteOnlyTheirFields : Prop :=
  ∀ (i : Instr) (s t : State),
    exec i s = .next t →
    (stagedBy s.cfg i ≠ none → t.tx = s.tx ∧ ∀ j, (t.slot j).minNext = (s.slot j).minNext)
    ∧ (stagedBy s.cfg i = none → ∀ j, (t.slot j).payload = (s.slot j).payload ∧ (t.slot j).used = (s.slot j).used)
    ∧ t.port = s.port ∧ t.cfg = s.cfg

/-- R88: a codec reads no state. From any two states with the same parameters, a command other than `TICK` treats each slot alike:
it leaves in both the same payload with `used` set, or it leaves the slot in both as it was. -/
def Obligations.CodecsReadNoState : Prop :=
  ∀ (i : Instr) (s s' : State),
    stagedBy s.cfg i ≠ none → s'.cfg = s.cfg →
    ∃ t t', exec i s = .next t ∧ exec i s' = .next t'
      ∧ ∀ j : Fin 32,
          ((t.slot j).payload = (t'.slot j).payload ∧ (t.slot j).used = true ∧ (t'.slot j).used = true)
          ∨ (t.slot j = s.slot j ∧ t'.slot j = s'.slot j)

/-- R45: of two commands that stage payloads one after the other, an overlapping slot holds what the later one staged, a slot only
the earlier one reaches holds what that one staged, and neither touches any `minNext`. -/
def Obligations.LaterStagingWins : Prop :=
  ∀ (i c : Instr) (s t u : State) (j : Fin 32),
    stagedBy s.cfg i ≠ none → stagedBy s.cfg c ≠ none → exec i s = .next t → exec c t = .next u →
    (∀ p, stagesSlot s.cfg c j = some p → (u.slot j).payload = p)
    ∧ (∀ p, stagesSlot s.cfg c j = none → stagesSlot s.cfg i j = some p → (u.slot j).payload = p)
    ∧ (u.slot j).minNext = (s.slot j).minNext

/-! ## The codecs: each is decoded from its words whatever the ignored bits hold, completes from every state, stages exactly its
payloads, and changes nothing else -/

/-- R84: `WRSLOT` stages the raw payload in slot `PORT` when `0 < PORT < 32`, and otherwise changes nothing. -/
def Obligations.WrslotStagesTheRawPayload : Prop :=
  ∀ (port b0 b1 : Byte) (rest : List Word) (s : State),
    decode s.cfg.timeW ((0x01#8 ++ port ++ (b0 ++ b1) : Word) :: rest)
        = .ok (.wrslot port b0 b1, rest)
    ∧ ∃ t, exec (.wrslot port b0 b1) s = .next t
      ∧ StagesFrom s t port.toNat [{ b0 := b0, b1 := b1 }]
      ∧ (port.toNat = 0 ∨ 32 ≤ port.toNat → t = s)

/-- R90: `VOLT`, its words, its two payloads and its frame. -/
def Obligations.VoltStagesTwoSlots : Prop :=
  ∀ (port : Byte) (aux : BitVec 16) (v1 v2 : Word) (rest : List Word) (s : State),
    decode s.cfg.timeW ((0x02#8 ++ port ++ aux : Word) :: v1 :: v2 :: rest)
        = .ok (.volt port v1 v2, rest)
    ∧ ∃ t, exec (.volt port v1 v2) s = .next t
      ∧ StagesFrom s t port.toNat
          [HB (clamp (orMask v1.toInt 0x8000) 0x8000 0x9FFF),
           HB (andMask (clamp v2.toInt 0 0x1FFF) 0x1FFF)]

/-- R91: the closed form of both slots of `VOLT` on every operand. -/
def Obligations.VoltSaturatesAtItsBounds : Prop :=
  ∀ (port : Byte) (v1 v2 : Word) (s : State),
    ∃ t, exec (.volt port v1 v2) s = .next t
      ∧ StagesFrom s t port.toNat
          [HB (if v1.toInt < 0 then 0x8000
               else if v1.toInt ≤ 0x1FFF then 0x8000 + v1.toInt
               else if v1.toInt ≤ 0x7FFF then 0x9FFF
               else if v1.toInt ≤ 0x9FFF then v1.toInt
               else 0x9FFF),
           HB (if v2.toInt < 0 then 0 else if v2.toInt ≤ 0x1FFF then v2.toInt else 0x1FFF)]

/-- R92, R93: slot 0 of `CURR` is `0x4000 | m` with `m` the current saturated to 14 bits; slots 1 and 2 are truncated. -/
def Obligations.CurrStagesThreeSlots : Prop :=
  ∀ (port : Byte) (aux : BitVec 16) (c v cap : Word) (rest : List Word) (s : State),
    decode s.cfg.timeW ((0x03#8 ++ port ++ aux : Word) :: c :: v :: cap :: rest)
        = .ok (.curr port c v cap, rest)
    ∧ ∃ t, exec (.curr port c v cap) s = .next t
      ∧ StagesFrom s t port.toNat
          [HB (0x4000 + (if c.toInt < 0 then 0 else if c.toInt ≤ 0x3FFF then c.toInt else 0x3FFF)),
           HB v.toInt,
           HB cap.toInt]

/-- R94: `TSBS01T`, its words, its payload (low byte first) and its frame. -/
def Obligations.Tsbs01tStagesOneSlot : Prop :=
  ∀ (port : Byte) (aux : BitVec 16) (x : Word) (rest : List Word) (s : State),
    decode s.cfg.timeW ((0x04#8 ++ port ++ aux : Word) :: x :: rest)
        = .ok (.tsbs01t port x, rest)
    ∧ ∃ t, exec (.tsbs01t port x) s = .next t
      ∧ StagesFrom s t port.toNat [LB (orMask x.toInt 0x8000 + 100)]

/-- R96: `T125`, its words, its payload (high byte first) and its frame. -/
def Obligations.T125StagesOneSlot : Prop :=
  ∀ (port : Byte) (aux : BitVec 16) (x : Word) (rest : List Word) (s : State),
    decode s.cfg.timeW ((0x05#8 ++ port ++ aux : Word) :: x :: rest)
        = .ok (.t125 port x, rest)
    ∧ ∃ t, exec (.t125 port x) s = .next t
      ∧ StagesFrom s t port.toNat [HB (orMask x.toInt 0x4000)]

/-- R95, R97: the closed forms of the two temperature fields on the ranges those rules name. -/
def Obligations.TemperatureFieldsByRange : Prop :=
  (∀ t : Int, -32768 ≤ t → t < 0 → tsbs01tPayloads t = [LB (t + 100)])
  ∧ (∀ t : Int, 0 ≤ t → t < 32768 → tsbs01tPayloads t = [LB (t + 32868)])
  ∧ (∀ t : Int, 32768 ≤ t → t < 65536 → tsbs01tPayloads t = [LB (t + 100)])
  ∧ (∀ t : Int, -16384 ≤ t → t < 0 → t125Payloads t = [HB t])
  ∧ (∀ t : Int, 0 ≤ t → t < 0x4000 → t125Payloads t = [HB (0x4000 + t)])
  ∧ (∀ t : Int, 0x4000 ≤ t → t < 0x8000 → t125Payloads t = [HB t])

/-- R98, R99: `RPM` stages a sixth of the speed, low byte first, 0 for a negative speed and `0xFFFF` from 393216 on. -/
def Obligations.RpmStagesASixth : Prop :=
  ∀ (port : Byte) (aux : BitVec 16) (r : Word) (rest : List Word) (s : State),
    decode s.cfg.timeW ((0x06#8 ++ port ++ aux : Word) :: r :: rest)
        = .ok (.rpm port r, rest)
    ∧ ∃ t, exec (.rpm port r) s = .next t
      ∧ StagesFrom s t port.toNat
          [LB (if r.toInt < 0 then 0 else if r.toInt < 393216 then r.toInt / 6 else 0xFFFF)]

/-- R110 to R113: `GPS1675`, for every value of `F1675_TIME`. -/
def Obligations.Gps1675StagesEightSlots : Prop :=
  ∀ (port : Byte) (aux : BitVec 16) (speed alt vario lat lon : Word) (rest : List Word) (s : State),
    decode s.cfg.timeW ((0x07#8 ++ port ++ aux : Word) :: speed :: alt :: vario :: lat :: lon :: rest)
        = .ok (.gps1675 port speed alt vario lat lon, rest)
    ∧ ∃ t, exec (.gps1675 port speed alt vario lat lon) s = .next t
      ∧ StagesFrom s t port.toNat
          ([HB (clamp (orMask speed.toInt 0x4000) 0x4000 0x43E7),
            HB (orMask alt.toInt 0x4000),
            { b0 := s.cfg.f1675Time.extractLsb' 8 8, b1 := s.cfg.f1675Time.extractLsb' 0 8 },
            HB vario.toInt]
           ++ coord1675 lat.toInt ++ coord1675 lon.toInt)

/-- R111: the speed field of `GPS1675`, slot 0, in closed form on every operand. -/
def Obligations.Gps1675SpeedSaturates : Prop :=
  ∀ (f1675Time : BitVec 16) (speed alt vario lat lon : Int),
    (gps1675Payloads f1675Time speed alt vario lat lon)[0]? =
      some (HB (if speed < 0 then 0x4000
        else if speed ≤ 999 then 0x4000 + speed
        else if speed < 0x4000 then 0x43E7
        else if speed ≤ 0x43E7 then speed
        else 0x43E7))

/-- R113, R114, on every coordinate: it is two payloads. The degree byte is `|x| div 10^6` on 8 bits. For `x >= 0` the three
fraction bytes are the fraction, so that below 256000000 the four bytes give `x` back exactly. For `x < 0` the top fraction byte is
`0x1F` (entry 16), and the other two bytes give the fraction modulo 65536. -/
def Obligations.Coordinate1675RoundTrip : Prop :=
  ∀ x : Int, ∃ d top mid low : Byte,
    coord1675 x = [{ b0 := d, b1 := top }, { b0 := mid, b1 := low }]
    ∧ d.toNat = x.natAbs / 1000000 % 256
    ∧ (0 ≤ x → top.toNat * 65536 + mid.toNat * 256 + low.toNat = x.natAbs % 1000000 ∧ top.toNat < 16)
    ∧ (0 ≤ x → x < 256000000 →
        (d.toNat * 1000000 + (top.toNat * 65536 + mid.toNat * 256 + low.toNat) : Int) = x)
    ∧ (x < 0 → top = 0x1F ∧ mid.toNat * 256 + low.toNat = x.natAbs % 1000000 % 65536)

/-- R116: `VARIO`, its words, its two payloads and its frame. -/
def Obligations.VarioStagesTwoSlots : Prop :=
  ∀ (port : Byte) (aux : BitVec 16) (v alt : Word) (rest : List Word) (s : State),
    decode s.cfg.timeW ((0x08#8 ++ port ++ aux : Word) :: v :: alt :: rest)
        = .ok (.vario port v alt, rest)
    ∧ ∃ t, exec (.vario port v alt) s = .next t
      ∧ StagesFrom s t port.toNat [HB v.toInt, HB (orMask alt.toInt 0x4000)]

/-- R118: `ESC8`, its words, its eight truncated payloads and its frame. -/
def Obligations.Esc8StagesEightSlots : Prop :=
  ∀ (port : Byte) (aux : BitVec 16) (voltage capacity rpm current temp becTemp becCurrent pwm : Word)
      (rest : List Word) (s : State),
    decode s.cfg.timeW ((0x09#8 ++ port ++ aux : Word)
        :: voltage :: capacity :: rpm :: current :: temp :: becTemp :: becCurrent :: pwm :: rest)
        = .ok (.esc8 port voltage capacity rpm current temp becTemp becCurrent pwm, rest)
    ∧ ∃ t, exec (.esc8 port voltage capacity rpm current temp becTemp becCurrent pwm) s = .next t
      ∧ StagesFrom s t port.toNat
          [HB (orMask voltage.toInt 0x8000), HB capacity.toInt, HB (rpm.toInt.tdiv 6), HB current.toInt, HB temp.toInt,
           HB becTemp.toInt, HB becCurrent.toInt, HB pwm.toInt]

/-- R120, R121: `JETCAT`, its saturating fields in closed form. -/
def Obligations.JetcatStagesFourteenSlots : Prop :=
  ∀ (port : Byte) (aux : BitVec 16) (rpm egt pumpVoltage setpointRpm thrust fuel fuelFlow altitude quality voltage current
      speed status rpm2 : Word) (rest : List Word) (s : State),
    decode s.cfg.timeW ((0x0A#8 ++ port ++ aux : Word)
        :: rpm :: egt :: pumpVoltage :: setpointRpm :: thrust :: fuel :: fuelFlow :: altitude :: quality :: voltage :: current
        :: speed :: status :: rpm2 :: rest)
        = .ok (.jetcat port rpm egt pumpVoltage setpointRpm thrust fuel fuelFlow altitude quality voltage current speed status
            rpm2, rest)
    ∧ ∃ t, exec (.jetcat port rpm egt pumpVoltage setpointRpm thrust fuel fuelFlow altitude quality voltage current speed
        status rpm2) s = .next t
      ∧ StagesFrom s t port.toNat
          [HB (if rpm.toInt < 0 then 0x4000
               else if rpm.toInt / 100 < 0x4000 then 0x4000 + rpm.toInt / 100
               else if rpm.toInt / 100 < 0x8000 then rpm.toInt / 100
               else if rpm.toInt / 100 < 0xC000 then 0x4000 + rpm.toInt / 100
               else if rpm.toInt / 100 ≤ 0xFFFF then rpm.toInt / 100
               else 0xFFFF),
           HB egt.toInt, HB pumpVoltage.toInt,
           HB (if setpointRpm.toInt < 0 then 0 else if setpointRpm.toInt < 6553600 then setpointRpm.toInt / 100 else 0xFFFF),
           HB thrust.toInt, HB fuel.toInt, HB fuelFlow.toInt, HB altitude.toInt, HB quality.toInt, HB voltage.toInt,
           HB current.toInt, HB speed.toInt, HB status.toInt,
           HB (if rpm2.toInt < 0 then 0 else if rpm2.toInt < 6553600 then rpm2.toInt / 100 else 0xFFFF)]

/-- R130: `SBS10G`, for every value of `State.cfg.layout`: eight payloads, each bit of which is what the layout's decision tree for
it answers on the six fields. That a layout is one decision tree over field bits for each of the 128 payload bits is the model's
form of `SBS10G_LAYOUT` (entry 5, DESIGN CHOICE); `EveryLayoutFunctionIsALayout` says that it leaves no function out. -/
def Obligations.Sbs10gStagesEightSlots : Prop :=
  ∀ (port : Byte) (aux : BitVec 16) (h m sec lat lon alt speed vario : Word) (rest : List Word) (s : State),
    decode s.cfg.timeW ((0x0B#8 ++ port ++ aux : Word) :: h :: m :: sec :: lat :: lon :: alt :: speed :: vario :: rest)
        = .ok (.sbs10g port h m sec lat lon alt speed vario, rest)
    ∧ ∃ t ps, exec (.sbs10g port h m sec lat lon alt speed vario) s = .next t
      ∧ StagesFrom s t port.toNat ps
      ∧ ps.length = 8
      ∧ ∀ k : Fin 8, ∃ p, ps[k.val]? = some p
          ∧ ∀ i : Fin 8,
            p.b0.getLsbD i.val =
              sourceBit (gpsFields h.toInt m.toInt sec.toInt lat.toInt lon.toInt alt.toInt speed.toInt vario.toInt)
                s.cfg.layout[2 * k.val][i]
            ∧ p.b1.getLsbD i.val =
              sourceBit (gpsFields h.toInt m.toInt sec.toInt lat.toInt lon.toInt alt.toInt speed.toInt vario.toInt)
                s.cfg.layout[2 * k.val + 1][i]

/-- D19, R137: `SBS10G_LAYOUT` may be any function from the six fields to eight payloads. For every such function there is a layout
in the model's form (entry 5) that gives the same payloads on the fields of every operand. -/
def Obligations.EveryLayoutFunctionIsALayout : Prop :=
  ∀ g : GpsFields → Vector Payload 8, ∃ layout : Layout,
    ∀ h m sec lat lon alt speed vario : Word,
      layoutPayloads layout
          (gpsFields h.toInt m.toInt sec.toInt lat.toInt lon.toInt alt.toInt speed.toInt vario.toInt)
        = (g (gpsFields h.toInt m.toInt sec.toInt lat.toInt lon.toInt alt.toInt speed.toInt vario.toInt)).toList

/-- R131 to R133, on every operand: the time of day in seconds, and the two coordinates as ten-thousandths of a minute rounded half
up, with bit 26 or 27 (entry 6) OR-ed in for south or west. The magnitude of a real coordinate leaves that bit free. -/
def Obligations.GpsTimeAndCoordinateFields : Prop :=
  (∀ h m s lat lon alt speed vario : Int,
      (gpsFields h m s lat lon alt speed vario).utc = h * 3600 + m * 60 + s
      ∧ (gpsFields h m s lat lon alt speed vario).lat =
          (6 * (lat.natAbs : Int) + 5) / 10
            + (if lat < 0 ∧ bitAt ((6 * (lat.natAbs : Int) + 5) / 10) 26 = false then 2 ^ 26 else 0)
      ∧ (gpsFields h m s lat lon alt speed vario).lon =
          (6 * (lon.natAbs : Int) + 5) / 10
            + (if lon < 0 ∧ bitAt ((6 * (lon.natAbs : Int) + 5) / 10) 27 = false then 2 ^ 27 else 0))
  ∧ (∀ lat : Int, (lat.natAbs : Int) ≤ 90000000 →
      (6 * (lat.natAbs : Int) + 5) / 10 ≤ 54000000 ∧ bitAt ((6 * (lat.natAbs : Int) + 5) / 10) 26 = false)
  ∧ ∀ lon : Int, (lon.natAbs : Int) ≤ 180000000 →
      (6 * (lon.natAbs : Int) + 5) / 10 ≤ 108000000 ∧ bitAt ((6 * (lon.natAbs : Int) + 5) / 10) 27 = false

/-- R134 to R136: the three range-gated fields in closed form, on every operand. -/
def Obligations.GpsGatedFields : Prop :=
  (∀ alt : Int, alt10G alt = if -82000 ≤ alt ∧ alt ≤ 483000 then (alt + 82040) / 80 else 0)
  ∧ (∀ speed : Int, speed10G speed = if 0 ≤ speed ∧ speed < 512 then 512 + speed else 0)
  ∧ (∀ vario : Int, vario10G vario =
      if -15000 ≤ vario ∧ vario < 25955 then 4096 + (vario + 15005) / 10
      else if 25955 ≤ vario ∧ vario ≤ 26000 then (vario + 15005) / 10
      else 0)

/-- R137, first description: the default layout (entry 5: general knowledge by the spec's own mark) as a table of bytes. -/
def Obligations.DefaultLayoutTable : Prop :=
  ∀ F : GpsFields,
    layoutPayloads defaultLayout F =
      [{ b0 := byteAt F.utc 0, b1 := byteAt F.utc 8 },
       { b0 := BitVec.ofInt 7 F.lat ++ BitVec.ofInt 1 (F.utc >>> 16), b1 := byteAt F.lat 7 },
       { b0 := byteAt F.lat 15, b1 := BitVec.ofInt 4 F.lon ++ BitVec.ofInt 4 (F.lat >>> 23) },
       { b0 := byteAt F.lon 4, b1 := byteAt F.lon 12 },
       { b0 := byteAt F.lon 20, b1 := byteAt F.speed 0 },
       { b0 := 0#6 ++ BitVec.ofInt 2 (F.speed >>> 8), b1 := 0x00 },
       { b0 := BitVec.ofInt 2 F.alt ++ 0#6, b1 := byteAt F.alt 2 },
       { b0 := BitVec.ofInt 5 F.vario ++ BitVec.ofInt 3 (F.alt >>> 10), b1 := byteAt F.vario 5 }]

/-- R137, second description: the sixteen bytes of the default layout, read as one little-endian number, are the number `W`. -/
def Obligations.DefaultLayoutNumber : Prop :=
  ∀ F : GpsFields,
    ((List.finRange 16).map fun j => (layoutByte defaultLayout F j).toNat * 256 ^ j.val).sum =
      (BitVec.ofInt 17 F.utc).toNat + (BitVec.ofInt 27 F.lat).toNat * 2 ^ 17 + (BitVec.ofInt 28 F.lon).toNat * 2 ^ 44
        + (BitVec.ofInt 10 F.speed).toNat * 2 ^ 72 + (BitVec.ofInt 13 F.alt).toNat * 2 ^ 102
        + (BitVec.ofInt 13 F.vario).toNat * 2 ^ 115

/-! ## Arithmetic -/

/-- R7, R62: the OR and the AND with a mask act on the two's-complement bits of an unbounded integer, and an OR with one bit adds
it if it is not set and otherwise leaves the operand as it is. -/
def Obligations.MasksActOnTwosComplement : Prop :=
  (∀ (a : Int) (m k : Nat), bitAt (orMask a m) k = (bitAt a k || m.testBit k))
  ∧ (∀ (a : Int) (m k : Nat), bitAt (andMask a m) k = (bitAt a k && m.testBit k))
  ∧ ∀ (a : Int) (k : Nat), orMask a (2 ^ k) = if bitAt a k then a else a + 2 ^ k

/-- R32, R61(b): a payload built from `v` holds the low 16 bits of `v`, high byte first or low byte first. -/
def Obligations.PayloadHoldsTheLowSixteenBits : Prop :=
  ∀ v : Int,
    ((HB v).b0.toNat * 256 + (HB v).b1.toNat : Int) = v % 65536
    ∧ ((LB v).b1.toNat * 256 + (LB v).b0.toNat : Int) = v % 65536

/-! ## The scheduler -/

/-- R75: the closed form of `resolveSlot`, and the staleness check never hides a slot. -/
def Obligations.ResolveSlotClosedForm : Prop :=
  ∀ (elapsed : Nat) (q : Fin 8),
    (resolveSlot elapsed = some q ↔
      2000 ≤ elapsed ∧ (elapsed - 2000) / 650 = q.val
        ∧ ((elapsed - 2000) % 650 = q.val + 1 ∨ (elapsed - 2000) % 650 = q.val + 257))
    ∧ (resolveSlot elapsed = some q ↔ elapsed = 2000 + 651 * q.val + 1 ∨ elapsed = 2000 + 651 * q.val + 257)
    ∧ (resolveSlot elapsed = some q → elapsed < 8000)

/-- R76, R77: no slot before the dead time is over, none when the offset `e - slot*650` exceeds 325, and a slot only inside the
early half of its own interval. -/
def Obligations.ResolveSlotKeepsTheWindow : Prop :=
  ∀ elapsed : Nat,
    (elapsed < 2000 → resolveSlot elapsed = none)
    ∧ (2000 ≤ elapsed → (elapsed - 2000 : Int) - (((elapsed - 2000) % 650 + 255) % 256 : Nat) * 650 > 325 →
        resolveSlot elapsed = none)
    ∧ ∀ q : Fin 8, resolveSlot elapsed = some q → inWindow elapsed q

/-! ## The transmit path -/

/-- R51, R56: the words of `TICK`, whatever `PORT` and `AUX[15:5]` hold: `page` in bits 1:0, `port_live`, `rx_serial` and
`proto_sbus2` in bits 2, 3 and 4, then `now`, then `elapsed`. At `TIME_W = 32` a time is its one word. For `TIME_W` in 33..64 a time
of `TIME_W` bits is two words, the least significant first. -/
def Obligations.TickWordsDecode : Prop :=
  ∀ (port : Byte) (ignored : BitVec 11) (page : BitVec 2) (live rx sbus2 : Bool) (rest : List Word),
    (∀ now elapsed : Word,
      decode 32 ((0x10#8 ++ port ++ (ignored ++ BitVec.ofBool sbus2 ++ BitVec.ofBool rx ++ BitVec.ofBool live ++ page) : Word)
          :: now :: elapsed :: rest)
        = .ok (.tick now.toNat elapsed.toNat page live rx sbus2, rest))
    ∧ ∀ (timeW : Nat) (nowLo nowHi elapsedLo elapsedHi : Word),
      33 ≤ timeW → timeW ≤ 64 → nowHi.toNat < 2 ^ (timeW - 32) → elapsedHi.toNat < 2 ^ (timeW - 32) →
      decode timeW ((0x10#8 ++ port ++ (ignored ++ BitVec.ofBool sbus2 ++ BitVec.ofBool rx ++ BitVec.ofBool live ++ page) : Word)
          :: nowLo :: nowHi :: elapsedLo :: elapsedHi :: rest)
        = .ok (.tick (nowLo.toNat + 2 ^ 32 * nowHi.toNat) (elapsedLo.toNat + 2 ^ 32 * elapsedHi.toNat) page live rx sbus2, rest)

/-- R150 to R156, a tick that sends: with the three enables, a fresh reference, a slot resolved, that slot of the page `used` and
its spacing over, the three bytes of its frame are appended to `TX`, its `minNext` is re-armed, and nothing else changes. -/
def Obligations.TickSendsTheFrame : Prop :=
  ∀ (s : State) (now elapsed : Nat) (page : BitVec 2) (q : Fin 8) (idx : Fin 32),
    elapsed ≤ 8000 → resolveSlot elapsed = some q → idx.val = page.toNat * 8 + q.val →
    (s.slot idx).used = true → (s.slot idx).minNext ≤ now →
    ∃ t, exec (.tick now elapsed page true true true) s = .next t
      ∧ t.tx = s.tx ++ [slotId s.cfg idx, (s.slot idx).payload.b0, (s.slot idx).payload.b1]
      ∧ t.slot idx = { s.slot idx with minNext := (now + 1000) % 2 ^ s.cfg.timeW }
      ∧ (∀ k : Fin 32, k ≠ idx → t.slot k = s.slot k)
      ∧ t.port = s.port ∧ t.cfg = s.cfg

/-- R150 to R154, R159, a tick that does not: if any of the conditions of R171 holds, the state is exactly as it was. -/
def Obligations.TickIsSilentOtherwise : Prop :=
  ∀ (s : State) (now elapsed : Nat) (page : BitVec 2) (live rx sbus2 : Bool),
    (live = false ∨ rx = false ∨ sbus2 = false ∨ 8000 < elapsed ∨ resolveSlot elapsed = none
      ∨ ∃ (q : Fin 8) (idx : Fin 32), resolveSlot elapsed = some q ∧ idx.val = page.toNat * 8 + q.val
          ∧ ((s.slot idx).used = false ∨ now < (s.slot idx).minNext)) →
    exec (.tick now elapsed page live rx sbus2) s = .next s

/-- R171, R172: a tick leaves the state unchanged exactly when one of the five labels holds of it. -/
def Obligations.TickLabelsAreComplete : Prop :=
  ∀ (s : State) (now elapsed : Nat) (page : BitVec 2) (live rx sbus2 : Bool),
    exec (.tick now elapsed page live rx sbus2) s = .next s ↔ tickLabel now elapsed page live rx sbus2 s ≠ none

/-- R200: a tick that changes the state has one of the sixteen values of `elapsed`. -/
def Obligations.TickSendsOnlyAtSixteenInstants : Prop :=
  ∀ (s t : State) (now elapsed : Nat) (page : BitVec 2) (live rx sbus2 : Bool),
    exec (.tick now elapsed page live rx sbus2) s = .next t → t ≠ s →
    elapsed ∈ [2001, 2257, 2652, 2908, 3303, 3559, 3954, 4210, 4605, 4861, 5256, 5512, 5907, 6163, 6558, 6814]

/-- R20, R155, R156: a command leaves `TX` as it is or appends the frame of one used slot; only a tick appends. -/
def Obligations.TxGrowsByOneFrame : Prop :=
  ∀ (i : Instr) (s t : State),
    exec i s = .next t →
    t.tx = s.tx
    ∨ (stagedBy s.cfg i = none ∧ ∃ n : Fin 32, (s.slot n).used = true
        ∧ t.tx = s.tx ++ [slotId s.cfg n, (s.slot n).payload.b0, (s.slot n).payload.b1])

/-! ## Invariants -/

/-- R170, R22: every command and every step has exactly one outcome, a next state, and no step changes the parameters. -/
def Obligations.EveryStepHasANextState : Prop :=
  (∀ (i : Instr) (s : State), ∃ t, exec i s = .next t)
  ∧ ∀ s : State, ∃ t, step s = .next t ∧ t.cfg = s.cfg

/-- The invariant of R23 holds after reset, and the empty history accounts for the reset state. -/
def Obligations.ResetMeetsTheInvariants : Prop :=
  State.reset.Inv ∧ AccountsFor [] State.reset

/-- R23: every step from a state of the invariant gives a state of the invariant. -/
def Obligations.StepKeepsTheInvariant : Prop :=
  ∀ s t : State, s.Inv → step s = .next t → t.Inv

/-- R23(c), in full: if a history of slot writes accounts for a state, then after any step the history with that step's writes
accounts for the next state. So `TX` holds nothing but frames of payloads that were staged in their own slot since reset. -/
def Obligations.TxHoldsOnlyStagedFrames : Prop :=
  ∀ (hist : List (Fin 32 × Payload)) (s t : State),
    AccountsFor hist s → step s = .next t → AccountsFor (historyAfter hist s) t

/-! ## Several commands in a row -/

/-- R43: if a command stages `p` in slot `j`, then any commands follow that do not stage slot `j`, then a tick whose index is `j`
comes with its preconditions met and the spacing of the slot over, that tick appends `(SLOT_ID[j], p)` to `TX`. -/
def Obligations.StagedPayloadIsSent : Prop :=
  ∀ (s u : State) (i : Instr) (mid : List Instr) (j : Fin 32) (p : Payload) (now elapsed : Nat) (page : BitVec 2)
    (q : Fin 8),
    stagesSlot s.cfg i j = some p →
    (∀ c ∈ mid, stagesSlot s.cfg c j = none) →
    execAll (i :: mid) s = .next u →
    elapsed ≤ 8000 → resolveSlot elapsed = some q → j.val = page.toNat * 8 + q.val →
    (u.slot j).minNext ≤ now →
    ∃ v, exec (.tick now elapsed page true true true) u = .next v
      ∧ v.tx = u.tx ++ [slotId s.cfg j, p.b0, p.b1]

/-- R87, R196: once a tick at `now` has sent the slot at its index, and `now + 1000` does not wrap, then after any commands whose
ticks are all earlier than `now + 1000`, every tick for that slot earlier than `now + 1000` is still silent. -/
def Obligations.SpacingHoldsAcrossCommands : Prop :=
  ∀ (s t u : State) (now elapsed : Nat) (page : BitVec 2) (q : Fin 8) (mid : List Instr),
    exec (.tick now elapsed page true true true) s = .next t → t ≠ s → resolveSlot elapsed = some q →
    now + 1000 < 2 ^ s.cfg.timeW →
    (∀ n e pg a b c, Instr.tick n e pg a b c ∈ mid → n < now + 1000) →
    execAll mid t = .next u →
    ∀ now' elapsed', now' < now + 1000 → resolveSlot elapsed' = some q →
      exec (.tick now' elapsed' page true true true) u = .next u

/-- R197(a): a slot taken in the last 1000 microseconds of the time base gets a wrapped `minNext` and can be taken again at once. -/
def Obligations.WrapBreaksSpacingOnce : Prop :=
  ∀ (s t : State) (i : Fin 32) (now : Nat) (f : Frame),
    18 ≤ s.cfg.timeW → now < 2 ^ s.cfg.timeW → 2 ^ s.cfg.timeW ≤ now + 1000 →
    storeTake s i now = some (f, t) →
    (t.slot i).minNext = now + 1000 - 2 ^ s.cfg.timeW ∧ ∃ u, storeTake t i now = some (f, u)

/-! ## Constants and the host's side -/

/-- R16: the four entries of the source for every parameter, and the default table: `SLOT_ID[i]` is the 5-bit index reversed into
bits 7:3 with `011` below (entry 3: general knowledge by the spec's own mark). -/
def Obligations.SlotIdTable : Prop :=
  (∀ c : Config, slotId c 0 = 0x03 ∧ slotId c 1 = 0x83 ∧ slotId c 2 = 0x43 ∧ slotId c 3 = 0xC3)
  ∧ ∀ i : Fin 32, slotId defaultConfig i = (BitVec.ofNat 5 i.val).reverse ++ 0b011#3

/-- R66: the two `ESC` names present the words of `ESC8`, and `NOP` presents one word that does nothing. -/
def Obligations.AliasesPresentTheSameWords : Prop :=
  (∀ (Q : Rat → Int) (port : Byte) (a b c d e f g k : Word),
    expandPseudo Q (.escScorpion port a b c d e f g k) = some (encode 32 (.esc8 port a b c d e f g k))
    ∧ expandPseudo Q (.escKontronik port a b c d e f g k) = some (encode 32 (.esc8 port a b c d e f g k)))
  ∧ (∀ Q : Rat → Int, expandPseudo Q .nop = some [0x00000000])
  ∧ ∀ (s : State) (es : List PortEvent),
      s.port = .word 0x00000000 :: es → step s = .next { s with port := es }

/-- R67: the four GPS input forms of one coordinate present the same words, whatever the host's rounding: degrees as `10^7` times
the degrees, and degrees and minutes in both minute forms. -/
def Obligations.GpsInputFormsAgree : Prop :=
  ∀ (Q : Rat → Int) (port : Byte) (speed alt vario latD latMin lonD lonMin : Rat),
    0 ≤ latD → 0 ≤ latMin → 0 ≤ lonD → 0 ≤ lonMin →
    expandPseudo Q (.gpsDm port speed alt vario latD latMin lonD lonMin)
        = expandPseudo Q (.gpsDeg port speed alt vario (latD + latMin / 60) (lonD + lonMin / 60))
    ∧ expandPseudo Q (.gpsDmi port speed alt vario latD (latMin * 10000) lonD (lonMin * 10000))
        = expandPseudo Q (.gpsDeg port speed alt vario (latD + latMin / 60) (lonD + lonMin / 60))
    ∧ expandPseudo Q (.gpsE7 port speed alt vario ((latD + latMin / 60) * 10 ^ 7) ((lonD + lonMin / 60) * 10 ^ 7))
        = expandPseudo Q (.gpsDeg port speed alt vario (latD + latMin / 60) (lonD + lonMin / 60))
end

