-- ==== Sys2Proof/Laws/Encoding.lean ====
section
/-! SUPPORT. The encoding's small lemmas: each field of a header word reads back, and the words of a time join to it again (R51). -/

namespace Sys2Proof

/-! A header word read back field by field (R51). -/

@[simp] theorem selField_header (sel port : Byte) (aux : BitVec 16) : selField (header sel port aux) = sel := by
  apply BitVec.eq_of_getLsbD_eq
  intro i hi
  have h1 : ¬ 24 + i < 16 := by omega
  have h2 : ¬ 24 + i - 16 < 8 := by omega
  have h3 : 24 + i - 16 - 8 = i := by omega
  simp only [selField, header, BitVec.getLsbD_extractLsb', BitVec.getLsbD_append, hi, h1, h2, h3, decide_true,
    Bool.true_and, if_false]

@[simp] theorem portField_header (sel port : Byte) (aux : BitVec 16) : portField (header sel port aux) = port := by
  apply BitVec.eq_of_getLsbD_eq
  intro i hi
  have h1 : ¬ 16 + i < 16 := by omega
  have h2 : 16 + i - 16 < 8 := by omega
  have h3 : 16 + i - 16 = i := by omega
  simp only [portField, header, BitVec.getLsbD_extractLsb', BitVec.getLsbD_append, hi, h1, h3, decide_true,
    Bool.true_and, if_false, if_true]

/-- The low bits of a header are those of `AUX`. -/
theorem header_getLsbD_low (sel port : Byte) (aux : BitVec 16) {k : Nat} (hk : k < 16) :
    (header sel port aux).getLsbD k = aux.getLsbD k := by
  simp only [header, BitVec.getLsbD_append, hk, if_true]

@[simp] theorem aux_header (sel port : Byte) (aux : BitVec 16) : (header sel port aux).extractLsb' 0 16 = aux := by
  apply BitVec.eq_of_getLsbD_eq
  intro i hi
  simp only [BitVec.getLsbD_extractLsb', hi, decide_true, Bool.true_and, Nat.zero_add, header_getLsbD_low]

/-- A word is the header of its own three fields. -/
theorem header_eta (h : Word) : header (selField h) (portField h) (h.extractLsb' 0 16) = h := by
  apply BitVec.eq_of_getLsbD_eq
  intro i hi
  simp only [header, selField, portField, BitVec.getLsbD_append, BitVec.getLsbD_extractLsb']
  split
  · rename_i h1; simp [h1]
  · split
    · rename_i h1 h2
      rw [show 16 + (i - 16) = i by omega]; simp [h2]
    · rename_i h1 h2
      have h3 : i - 16 - 8 < 8 := by omega
      rw [show 24 + (i - 16 - 8) = i by omega]; simp [h3]

@[simp] theorem auxHigh_header (sel port b0 b1 : Byte) : auxHigh (header sel port (b0 ++ b1)) = b0 := by
  apply BitVec.eq_of_getLsbD_eq
  intro i hi
  have h1 : 8 + i < 16 := by omega
  have h2 : ¬ 8 + i < 8 := by omega
  have h3 : 8 + i - 8 = i := by omega
  simp only [auxHigh, BitVec.getLsbD_extractLsb', hi, decide_true, Bool.true_and, header_getLsbD_low _ _ _ h1,
    BitVec.getLsbD_append, h2, if_false, h3]

@[simp] theorem auxLow_header (sel port b0 b1 : Byte) : auxLow (header sel port (b0 ++ b1)) = b1 := by
  apply BitVec.eq_of_getLsbD_eq
  intro i hi
  have h1 : i < 16 := by omega
  simp only [auxLow, BitVec.getLsbD_extractLsb', hi, decide_true, Bool.true_and, Nat.zero_add, header_getLsbD_low _ _ _ h1,
    BitVec.getLsbD_append, if_true]

/-- The fields of format T's `AUX` (R51). -/
theorem tickAux_fields (page : BitVec 2) (live rx sbus2 : Bool) :
    (tickAux page live rx sbus2).extractLsb' 0 2 = page ∧ (tickAux page live rx sbus2).getLsbD 2 = live
      ∧ (tickAux page live rx sbus2).getLsbD 3 = rx ∧ (tickAux page live rx sbus2).getLsbD 4 = sbus2
      ∧ (tickAux page live rx sbus2).extractLsb' 5 11 = 0 := by
  revert page live rx sbus2; decide

/-! The words of a time (R51). -/

/-- Taking the words that were split off gives them and what follows. -/
theorem takeWords_splitWords (n v : Nat) (rest : List Word) :
    takeWords n (splitWords n v ++ rest) = some (splitWords n v, rest) := by
  induction n generalizing v with
  | zero => rfl
  | succ n ih => simp [splitWords, takeWords, ih]

/-- Joining the `n` words of a number gives it modulo `2 ^ (32 n)`. -/
theorem joinWords_splitWords (n v : Nat) : joinWords (splitWords n v) = v % 2 ^ (32 * n) := by
  induction n generalizing v with
  | zero => simp [splitWords, joinWords, Nat.mod_one]
  | succ n ih =>
    simp only [splitWords, joinWords, ih, BitVec.toNat_ofNat]
    rw [Nat.mul_succ, Nat.add_comm (32 * n) 32, Nat.pow_add, Nat.mod_mul]

@[simp] theorem splitWords_length (n v : Nat) : (splitWords n v).length = n := by
  induction n generalizing v with
  | zero => rfl
  | succ n ih => simp [splitWords, ih]

/-- A time of `TIME_W` bits survives being split into words and read back. -/
theorem takeTime_splitWords {timeW v : Nat} (hv : v < 2 ^ timeW) (rest : List Word) :
    takeTime timeW (splitWords (timeWords timeW) v ++ rest) = some (v, rest) := by
  have h : timeW ≤ 32 * timeWords timeW := by unfold timeWords; omega
  unfold takeTime
  rw [takeWords_splitWords]
  simp only [joinWords_splitWords, Option.some.injEq, Prod.mk.injEq, and_true]
  rw [Nat.mod_eq_of_lt (lt_of_lt_of_le hv (Nat.pow_le_pow_right (by norm_num) h)), Nat.mod_eq_of_lt hv]

end Sys2Proof
end

