-- ==== Sys2Proof/Laws/State.lean ====
section
/-! SUPPORT. One lemma per field per named update of the state, so that no later proof unfolds a record update. -/

namespace Sys2Proof.Machine

@[simp] theorem Slot.stage_payload (x : Slot) (p : Payload) : (x.stage p).payload = p := rfl
@[simp] theorem Slot.stage_used (x : Slot) (p : Payload) : (x.stage p).used = true := rfl
@[simp] theorem Slot.stage_minNext (x : Slot) (p : Payload) : (x.stage p).minNext = x.minNext := rfl

@[simp] theorem Slot.rearm_payload (x : Slot) (n : Nat) : (x.rearm n).payload = x.payload := rfl
@[simp] theorem Slot.rearm_used (x : Slot) (n : Nat) : (x.rearm n).used = x.used := rfl
@[simp] theorem Slot.rearm_minNext (x : Slot) (n : Nat) : (x.rearm n).minNext = n := rfl

@[simp] theorem State.setSlot_tx (s : State) (i : Fin 32) (x : Slot) : (s.setSlot i x).tx = s.tx := rfl
@[simp] theorem State.setSlot_port (s : State) (i : Fin 32) (x : Slot) : (s.setSlot i x).port = s.port := rfl
@[simp] theorem State.setSlot_cfg (s : State) (i : Fin 32) (x : Slot) : (s.setSlot i x).cfg = s.cfg := rfl

/-- A slot read after a write of a slot. -/
theorem State.slot_setSlot (s : State) (i : Fin 32) (x : Slot) (j : Fin 32) :
    (s.setSlot i x).slot j = if j = i then x else s.slot j := by
  unfold State.slot State.setSlot
  by_cases h : j = i
  · subst h; simp
  · have : ¬ i.val = j.val := fun e => h (Fin.ext e.symm)
    simp [h, Vector.getElem_set_ne _ _ this]

@[simp] theorem State.slot_setSlot_same (s : State) (i : Fin 32) (x : Slot) : (s.setSlot i x).slot i = x := by
  simp [State.slot_setSlot]

theorem State.slot_setSlot_other {s : State} {i j : Fin 32} (x : Slot) (h : j ≠ i) :
    (s.setSlot i x).slot j = s.slot j := by
  simp [State.slot_setSlot, h]

/-- Two states are equal when every slot and every other field is. -/
theorem State.ext_slot {s t : State} (h : ∀ i, s.slot i = t.slot i) (htx : s.tx = t.tx) (hp : s.port = t.port)
    (hc : s.cfg = t.cfg) : s = t := by
  cases s; cases t
  simp only [State.slot] at h
  simp only [State.mk.injEq]
  refine ⟨?_, htx, hp, hc⟩
  apply Vector.ext
  intro i hi
  exact h ⟨i, hi⟩

/-! What the host presents and the parameters are no part of the slot array or of `TX`. -/

@[simp] theorem slot_with_port (s : State) (es : List PortEvent) (i : Fin 32) :
    ({ s with port := es } : State).slot i = s.slot i := rfl
@[simp] theorem slot_with_tx (s : State) (tx : List Byte) (i : Fin 32) :
    ({ s with tx := tx } : State).slot i = s.slot i := rfl

@[simp] theorem drop_eq (s : State) : drop s = .next s := rfl

@[simp] theorem storeWrite_tx (s : State) (i : Nat) (p : Payload) : (storeWrite s i p).tx = s.tx := by
  unfold storeWrite; split <;> rfl
@[simp] theorem storeWrite_port (s : State) (i : Nat) (p : Payload) : (storeWrite s i p).port = s.port := by
  unfold storeWrite; split <;> rfl
@[simp] theorem storeWrite_cfg (s : State) (i : Nat) (p : Payload) : (storeWrite s i p).cfg = s.cfg := by
  unfold storeWrite; split <;> rfl

@[simp] theorem rearmSlot_tx (s : State) (i : Fin 32) (now : Nat) : (rearmSlot s i now).tx = s.tx := rfl
@[simp] theorem rearmSlot_port (s : State) (i : Fin 32) (now : Nat) : (rearmSlot s i now).port = s.port := rfl
@[simp] theorem rearmSlot_cfg (s : State) (i : Fin 32) (now : Nat) : (rearmSlot s i now).cfg = s.cfg := rfl

@[simp] theorem emit_slot (s : State) (f : Frame) (i : Fin 32) : (emit s f).slot i = s.slot i := rfl
@[simp] theorem emit_tx (s : State) (f : Frame) : (emit s f).tx = s.tx ++ [f.slotId, f.b0, f.b1] := rfl
@[simp] theorem emit_port (s : State) (f : Frame) : (emit s f).port = s.port := rfl
@[simp] theorem emit_cfg (s : State) (f : Frame) : (emit s f).cfg = s.cfg := rfl

@[simp] theorem reset_slot (i : Fin 32) : State.reset.slot i = resetSlot := by simp [State.reset, State.slot]
@[simp] theorem reset_tx : State.reset.tx = [] := rfl
@[simp] theorem reset_port : State.reset.port = [] := rfl
@[simp] theorem reset_cfg : State.reset.cfg = defaultConfig := rfl

@[simp] theorem applyReset_slot (s : State) (i : Fin 32) : (applyReset s).slot i = resetSlot := by
  simp [applyReset, State.reset, State.slot]
@[simp] theorem applyReset_tx (s : State) : (applyReset s).tx = [] := rfl
@[simp] theorem applyReset_port (s : State) : (applyReset s).port = s.port := rfl
@[simp] theorem applyReset_cfg (s : State) : (applyReset s).cfg = s.cfg := rfl

end Sys2Proof.Machine
end

