-- ==== Sys2Proof/Laws/Store.lean ====
section
/-! SUPPORT. What the store's two operations can do, said once: a write reaches one slot of 1..31 or none (R80), a codec's writes
reach the slots its list covers (R35), a take answers the frame and re-arms one slot or does nothing (R82). -/

namespace Sys2Proof.Machine

/-- A write, read back at any slot (R80). -/
theorem storeWrite_slot (s : State) (idx : Nat) (p : Payload) (j : Fin 32) :
    (storeWrite s idx p).slot j = if 0 < idx ∧ idx = j.val then (s.slot j).stage p else s.slot j := by
  unfold storeWrite
  split
  · rename_i h
    rw [State.slot_setSlot]
    by_cases hj : idx = j.val
    · subst hj; simp [h.1]
    · rw [if_neg (fun e => hj (by rw [e])), if_neg (fun c => hj c.2)]
  · rename_i h
    rw [if_neg]
    rintro ⟨h0, rfl⟩
    exact h ⟨h0, j.isLt⟩

@[simp] theorem storeSeq_tx (s : State) (idx : Nat) (ps : List Payload) : (storeSeq s idx ps).tx = s.tx := by
  induction ps generalizing s idx with
  | nil => rfl
  | cons p ps ih => simp [storeSeq, ih]

@[simp] theorem storeSeq_port (s : State) (idx : Nat) (ps : List Payload) : (storeSeq s idx ps).port = s.port := by
  induction ps generalizing s idx with
  | nil => rfl
  | cons p ps ih => simp [storeSeq, ih]

@[simp] theorem storeSeq_cfg (s : State) (idx : Nat) (ps : List Payload) : (storeSeq s idx ps).cfg = s.cfg := by
  induction ps generalizing s idx with
  | nil => rfl
  | cons p ps ih => simp [storeSeq, ih]

/-- A codec's writes, read back at any slot (R35). -/
theorem storeSeq_slot (s : State) (idx : Nat) (ps : List Payload) (j : Fin 32) :
    (storeSeq s idx ps).slot j =
      match writtenAt idx ps j with
      | some p => (s.slot j).stage p
      | none => s.slot j := by
  induction ps generalizing s idx with
  | nil => simp [storeSeq, writtenAt]
  | cons p ps ih =>
    rw [storeSeq, ih, storeWrite_slot]
    unfold writtenAt
    rcases Nat.lt_trichotomy idx j.val with h | h | h
    · have e : j.val - idx = (j.val - (idx + 1)) + 1 := by omega
      have h1 : idx ≤ j.val := by omega
      have h2 : idx + 1 ≤ j.val := by omega
      have h3 : ¬ idx = j.val := by omega
      have h4 : 0 < j.val := by omega
      simp only [h1, h2, h3, h4, e, and_true, and_false, if_true, if_false, List.getElem?_cons_succ]
    · subst h
      have h2 : ¬ j.val + 1 ≤ j.val := by omega
      by_cases h0 : 0 < j.val <;> simp [h0, h2]
    · have h1 : ¬ idx ≤ j.val := by omega
      have h2 : ¬ idx + 1 ≤ j.val := by omega
      have h3 : ¬ idx = j.val := by omega
      simp [h1, h2, h3]

/-- Re-arming one slot, read back at any slot (R82, R83). -/
theorem rearmSlot_slot (s : State) (i : Fin 32) (now : Nat) (j : Fin 32) :
    (rearmSlot s i now).slot j =
      if j = i then (s.slot i).rearm ((now + minSpacing) % 2 ^ s.cfg.timeW) else s.slot j := by
  unfold rearmSlot
  rw [State.slot_setSlot]

/-- What a take can answer (R82). -/
theorem storeTake_eq_some {s : State} {i : Fin 32} {now : Nat} {f : Frame} {t : State}
    (h : storeTake s i now = some (f, t)) :
    (s.slot i).used = true ∧ (s.slot i).minNext ≤ now ∧ f = frameOf s i ∧ t = rearmSlot s i now := by
  unfold storeTake at h
  split at h
  · rename_i he
    simp only [Slot.eligible, Bool.and_eq_true, decide_eq_true_eq] at he
    simp only [Option.some.injEq, Prod.mk.injEq] at h
    exact ⟨he.1, he.2, h.1.symm, h.2.symm⟩
  · cases h

/-- When a take succeeds (R82). -/
theorem storeTake_of_eligible {s : State} {i : Fin 32} {now : Nat} (hu : (s.slot i).used = true)
    (hn : (s.slot i).minNext ≤ now) : storeTake s i now = some (frameOf s i, rearmSlot s i now) := by
  unfold storeTake Slot.eligible
  rw [hu, if_pos (by simpa using hn)]

/-- When a take fails (R82). -/
theorem storeTake_of_not {s : State} {i : Fin 32} {now : Nat}
    (h : (s.slot i).used = false ∨ now < (s.slot i).minNext) : storeTake s i now = none := by
  unfold storeTake Slot.eligible
  rw [if_neg]
  intro hc
  simp only [Bool.and_eq_true, decide_eq_true_eq] at hc
  rcases h with h | h
  · rw [h] at hc; cases hc.1
  · omega

end Sys2Proof.Machine
end

