-- ==== Sys2Proof/Laws/Exec.lean ====
section
/-! SUPPORT. What executing one command can do, said once: a staging command writes its list and nothing else (R88); a tick leaves
the state as it is or sends the one frame of the slot at its index (R150, R155, R159). -/

namespace Sys2Proof.Machine

/-- A staging command answers the state with its payloads written (R84, R88). -/
theorem exec_of_stagedBy {i : Instr} {s : State} {idx : Nat} {ps : List Payload}
    (h : stagedBy s.cfg i = some (idx, ps)) : exec i s = .next (storeSeq s idx ps) := by
  cases i with
  | tick => cases h
  | _ =>
    simp only [stagedBy, Option.some.injEq, Prod.mk.injEq] at h
    obtain ⟨rfl, rfl⟩ := h
    rfl

/-- A command stages a list, or it is a tick. -/
theorem stagedBy_or_tick (c : Config) (i : Instr) :
    (∃ idx ps, stagedBy c i = some (idx, ps)) ∨
      ∃ now elapsed page live rx sbus2, i = .tick now elapsed page live rx sbus2 := by
  cases i with
  | tick now elapsed page live rx sbus2 => exact .inr ⟨now, elapsed, page, live, rx, sbus2, rfl⟩
  | _ => exact .inl ⟨_, _, rfl⟩

/-- The frame is sent and the slot re-armed (R82, R156). -/
def sendSlot (s : State) (i : Fin 32) (now : Nat) : State := emit (rearmSlot s i now) (frameOf s i)

/-- Everything a tick can do (R150): nothing, or, with every check passed, the send of the one slot at its index. -/
theorem execTick_cases (now elapsed : Nat) (page : BitVec 2) (live rx sbus2 : Bool) (s : State) :
    execTick now elapsed page live rx sbus2 s = .next s ∨
      ∃ q : Fin 8, live = true ∧ rx = true ∧ sbus2 = true ∧ elapsed ≤ staleMax ∧ resolveSlot elapsed = some q ∧
        (s.slot (globalIndex page q)).used = true ∧ (s.slot (globalIndex page q)).minNext ≤ now ∧
        execTick now elapsed page live rx sbus2 s = .next (sendSlot s (globalIndex page q) now) := by
  unfold execTick
  split
  · exact .inl rfl
  · rename_i hen
    split
    · exact .inl rfl
    · rename_i hst
      cases hq : resolveSlot elapsed with
      | none => exact .inl rfl
      | some q =>
        cases ht : storeTake s (globalIndex page q) now with
        | none => simp only [ht]; exact .inl rfl
        | some r =>
          obtain ⟨f, t⟩ := r
          obtain ⟨hu, hn, rfl, rfl⟩ := storeTake_eq_some ht
          refine .inr ⟨q, ?_, ?_, ?_, by omega, rfl, hu, hn, by simp only [ht]; rfl⟩ <;>
            cases live <;> cases rx <;> cases sbus2 <;> simp_all

/-- A tick that passes every check sends (R150). -/
theorem execTick_sends {now elapsed : Nat} {page : BitVec 2} {s : State} {q : Fin 8} (hs : elapsed ≤ staleMax)
    (hq : resolveSlot elapsed = some q) (hu : (s.slot (globalIndex page q)).used = true)
    (hn : (s.slot (globalIndex page q)).minNext ≤ now) :
    execTick now elapsed page true true true s = .next (sendSlot s (globalIndex page q) now) := by
  unfold execTick
  rw [if_neg (by decide), if_neg (by omega), hq]
  simp only [storeTake_of_eligible hu hn]
  rfl

/-- Everything a command can do. -/
theorem exec_cases (i : Instr) (s : State) :
    (∃ idx ps, stagedBy s.cfg i = some (idx, ps) ∧ exec i s = .next (storeSeq s idx ps)) ∨
      (stagedBy s.cfg i = none ∧
        (exec i s = .next s ∨
          ∃ (n : Fin 32) (now : Nat), (s.slot n).used = true ∧ (s.slot n).minNext ≤ now ∧
            exec i s = .next (sendSlot s n now))) := by
  rcases stagedBy_or_tick s.cfg i with ⟨idx, ps, h⟩ | ⟨now, elapsed, page, live, rx, sbus2, rfl⟩
  · exact .inl ⟨idx, ps, h, exec_of_stagedBy h⟩
  · refine .inr ⟨rfl, ?_⟩
    rcases execTick_cases now elapsed page live rx sbus2 s with h | ⟨q, -, -, -, -, -, hu, hn, h⟩
    · exact .inl h
    · exact .inr ⟨_, now, hu, hn, h⟩

end Sys2Proof.Machine
end

