-- ==== Sys2Proof/Laws/Gps.lean ====
section
/-! SUPPORT. What an `SBS10G` layout gives, said once: each decision tree's answer, each bit of a byte, each payload (R137). -/

namespace Sys2Proof.Machine

@[simp] theorem sourceBit_const (F : GpsFields) (b : Bool) : sourceBit F (.const b) = b := rfl

/-- A payload bit placed from a field is that bit of the field. -/
@[simp] theorem sourceBit_fieldBit (F : GpsFields) (f : GpsField) (n : Nat) :
    sourceBit F (fieldBit f n) = bitAt (gpsField F f) n := by
  simp only [fieldBit, sourceBit]
  split <;> simp_all

/-- The low bits of a byte made from a list of bits are the list's, and the bits beyond it are zero. -/
theorem byteOfBits_getLsbD (bits : List Bool) (i : Nat) (hi : i < 8) :
    (byteOfBits bits).getLsbD i = bits.getD i false := by
  have key : ∀ (l : List Bool) (k : Nat), (l.foldr (fun (b : Bool) acc => b.toNat + 2 * acc) 0).testBit k = l.getD k false := by
    intro l
    induction l with
    | nil => intro k; simp
    | cons b l ih =>
      intro k
      cases k with
      | zero => cases b <;> simp [Nat.testBit_zero]
      | succ k => cases b <;> simpa [Nat.testBit_succ, Nat.add_mul_div_left] using ih k
  simp only [byteOfBits, BitVec.getLsbD_ofNat, hi, decide_true, Bool.true_and, key]

/-- Each bit of a payload byte is the answer of its own tree (R137). -/
theorem layoutByte_getLsbD (layout : Layout) (F : GpsFields) (j : Fin 16) (i : Fin 8) :
    (layoutByte layout F j).getLsbD i.val = sourceBit F layout[j][i] := by
  rw [layoutByte, byteOfBits_getLsbD _ _ i.isLt]
  simp

@[simp] theorem layoutPayloads_length (layout : Layout) (F : GpsFields) :
    (layoutPayloads layout F).length = 8 := by
  simp [layoutPayloads]

/-- Payload `k` is bytes `2k` and `2k + 1` (R137). -/
theorem layoutPayloads_getElem? (layout : Layout) (F : GpsFields) (k : Fin 8) :
    (layoutPayloads layout F)[k.val]? =
      some { b0 := layoutByte layout F ⟨2 * k.val, by omega⟩, b1 := layoutByte layout F ⟨2 * k.val + 1, by omega⟩ } := by
  simp [layoutPayloads]

end Sys2Proof.Machine
end

