-- ==== Sys2Proof/Laws/Operands.lean ====
section
/-! SUPPORT. What the arithmetic primitives of R7 can answer, said once. -/

namespace Sys2Proof.Machine

/-- Division of a non-negative dividend rounds down, as rounding toward zero does (R63). -/
theorem truncDiv_of_nonneg {a b : Int} (h : 0 ≤ a) : truncDiv a b = a / b := Int.tdiv_eq_ediv_of_nonneg h

/-- Division of a negative dividend is the negated division of its magnitude (R63). -/
theorem truncDiv_of_neg {a b : Int} (h : a < 0) : truncDiv a b = -(-a / b) := by
  have h1 := Int.tdiv_eq_ediv_of_nonneg (a := -a) (b := b) (by omega)
  rw [Int.neg_tdiv] at h1
  unfold truncDiv
  omega

/-- A clamp answers one of its bounds or the value, and stays between the bounds (R7). -/
theorem clamp_cases {v lo hi : Int} (h : lo ≤ hi) :
    (v < lo ∧ clamp v lo hi = lo) ∨ (hi < v ∧ clamp v lo hi = hi) ∨ (lo ≤ v ∧ v ≤ hi ∧ clamp v lo hi = v) := by
  unfold clamp
  split_ifs <;> omega

/-- On a non-negative operand the OR is that of the natural numbers (R7). -/
@[simp] theorem orMask_natCast (n m : Nat) : orMask (n : Int) m = ((n ||| m : Nat) : Int) := rfl

/-- On a non-negative operand the AND is that of the natural numbers (R7). -/
@[simp] theorem andMask_natCast (n m : Nat) : andMask (n : Int) m = ((n &&& m : Nat) : Int) := rfl

/-- The OR of a negative operand stays negative: its sign bits are all set already (R62). -/
theorem orMask_neg {a : Int} (m : Nat) (h : a < 0) : orMask a m < 0 := by
  cases a with
  | ofNat n => exact absurd h (by simp)
  | negSucc n => exact Int.negSucc_lt_zero _

/-- A bit of a non-negative integer. -/
theorem bitAt_natCast (n k : Nat) : bitAt (n : Int) k = n.testBit k := by
  unfold bitAt
  rw [Nat.testBit_eq_decide_div_mod_eq, Int.shiftRight_eq_div_pow, Bool.eq_iff_iff]
  simp
  norm_cast

/-- A bit of a negative integer is the complement of its magnitude's (R6). -/
theorem bitAt_negSucc (n k : Nat) : bitAt (Int.negSucc n) k = !n.testBit k := by
  unfold bitAt
  rw [Nat.testBit_eq_decide_div_mod_eq]
  change (Int.negSucc (n >>> k) % 2 == 1) = _
  rw [Nat.shiftRight_eq_div_pow, Bool.eq_iff_iff]
  simp
  omega

/-- A byte taken from a non-negative integer. -/
theorem byteAt_natCast (n k : Nat) : byteAt (n : Int) k = BitVec.ofNat 8 (n >>> k) := by
  unfold byteAt
  rw [← BitVec.ofInt_natCast]
  rfl

end Sys2Proof.Machine
end

