-- ==== Sys2Proof/Laws/PerInstr.lean ====
section
/-! SUPPORT. Facts about the commands as syntax, one lemma per constructor. -/

namespace Sys2Proof.Laws

/-- The words of a command: a header whose selector names it, and as many operand words as R52 gives that selector, one header
for each command whatever `TIME_W` is. -/
def EncodeShape.Statement (i : Instr) : Prop :=
  ∃ h sel, selectorOf (selField h) = some sel ∧
    ∀ timeW, ∃ ops, encode timeW i = h :: ops ∧ ops.length = operandWords timeW sel

theorem EncodeShape.wrslot (port b0 b1 : Byte) : EncodeShape.Statement (.wrslot port b0 b1) :=
  ⟨_, .wrslot, by rw [selField_header]; rfl, fun _ => ⟨_, rfl, rfl⟩⟩

theorem EncodeShape.volt (port : Byte) (v1 v2 : Word) : EncodeShape.Statement (.volt port v1 v2) :=
  ⟨_, .volt, by rw [selField_header]; rfl, fun _ => ⟨_, rfl, rfl⟩⟩

theorem EncodeShape.curr (port : Byte) (c v cap : Word) : EncodeShape.Statement (.curr port c v cap) :=
  ⟨_, .curr, by rw [selField_header]; rfl, fun _ => ⟨_, rfl, rfl⟩⟩

theorem EncodeShape.tsbs01t (port : Byte) (t : Word) : EncodeShape.Statement (.tsbs01t port t) :=
  ⟨_, .tsbs01t, by rw [selField_header]; rfl, fun _ => ⟨_, rfl, rfl⟩⟩

theorem EncodeShape.t125 (port : Byte) (t : Word) : EncodeShape.Statement (.t125 port t) :=
  ⟨_, .t125, by rw [selField_header]; rfl, fun _ => ⟨_, rfl, rfl⟩⟩

theorem EncodeShape.rpm (port : Byte) (r : Word) : EncodeShape.Statement (.rpm port r) :=
  ⟨_, .rpm, by rw [selField_header]; rfl, fun _ => ⟨_, rfl, rfl⟩⟩

theorem EncodeShape.gps1675 (port : Byte) (speed alt vario lat lon : Word) :
    EncodeShape.Statement (.gps1675 port speed alt vario lat lon) :=
  ⟨_, .gps1675, by rw [selField_header]; rfl, fun _ => ⟨_, rfl, rfl⟩⟩

theorem EncodeShape.vario (port : Byte) (v alt : Word) : EncodeShape.Statement (.vario port v alt) :=
  ⟨_, .vario, by rw [selField_header]; rfl, fun _ => ⟨_, rfl, rfl⟩⟩

theorem EncodeShape.esc8 (port : Byte) (a b c d e f g k : Word) : EncodeShape.Statement (.esc8 port a b c d e f g k) :=
  ⟨_, .esc8, by rw [selField_header]; rfl, fun _ => ⟨_, rfl, rfl⟩⟩

theorem EncodeShape.jetcat (port : Byte) (a b c d e f g k l m n o p q : Word) :
    EncodeShape.Statement (.jetcat port a b c d e f g k l m n o p q) :=
  ⟨_, .jetcat, by rw [selField_header]; rfl, fun _ => ⟨_, rfl, rfl⟩⟩

theorem EncodeShape.sbs10g (port : Byte) (a b c d e f g k : Word) :
    EncodeShape.Statement (.sbs10g port a b c d e f g k) :=
  ⟨_, .sbs10g, by rw [selField_header]; rfl, fun _ => ⟨_, rfl, rfl⟩⟩

theorem EncodeShape.tick (now elapsed : Nat) (page : BitVec 2) (live rx sbus2 : Bool) :
    EncodeShape.Statement (.tick now elapsed page live rx sbus2) := by
  refine ⟨_, .tick, by rw [selField_header]; rfl, fun timeW => ⟨_, rfl, ?_⟩⟩
  simp only [List.length_append, splitWords_length, operandWords]
  omega

end Sys2Proof.Laws
end

