-- ==== Sys2Proof/Laws/Port.lean ====
section
/-! SUPPORT. The command port: what a list of words presents, that more words after a command do not change it, and what one step
does with what it finds. -/

namespace Sys2Proof

theorem takeWords_append {n : Nat} {ws a b : List Word} (h : takeWords n ws = some (a, b)) (more : List Word) :
    takeWords n (ws ++ more) = some (a, b ++ more) := by
  induction n generalizing ws a b with
  | zero =>
    simp only [takeWords, Option.some.injEq, Prod.mk.injEq] at h ⊢
    exact ⟨h.1, by rw [h.2]⟩
  | succ n ih =>
    cases ws with
    | nil => cases h
    | cons w ws =>
      simp only [takeWords, List.cons_append] at h ⊢
      cases hr : takeWords n ws with
      | none => rw [hr] at h; cases h
      | some r =>
        obtain ⟨c, d⟩ := r
        rw [hr] at h
        simp only [Option.some.injEq, Prod.mk.injEq] at h
        obtain ⟨rfl, rfl⟩ := h
        rw [ih hr]

theorem takeTime_append {timeW : Nat} {ws b : List Word} {t : Nat} (h : takeTime timeW ws = some (t, b))
    (more : List Word) : takeTime timeW (ws ++ more) = some (t, b ++ more) := by
  unfold takeTime at h ⊢
  cases hr : takeWords (timeWords timeW) ws with
  | none => rw [hr] at h; cases h
  | some r =>
    rw [hr] at h
    simp only [Option.some.injEq, Prod.mk.injEq] at h
    rw [takeWords_append hr]
    simp [h.1, h.2]

theorem decodeOperands_append {timeW : Nat} {sel : Selector} {hd : Word} {ops rest : List Word} {i : Instr}
    (h : decodeOperands timeW sel hd ops = some (i, rest)) (more : List Word) :
    decodeOperands timeW sel hd (ops ++ more) = some (i, rest ++ more) := by
  unfold decodeOperands at h ⊢
  cases sel with
  | wrslot =>
    simp only [Option.some.injEq, Prod.mk.injEq] at h ⊢
    exact ⟨h.1, by rw [h.2]⟩
  | tick =>
    cases h1 : takeTime timeW ops with
    | none => simp [h1] at h
    | some r1 =>
      obtain ⟨now, ops1⟩ := r1
      cases h2 : takeTime timeW ops1 with
      | none => simp [h1, h2] at h
      | some r2 =>
        simp only [h1, h2, Option.some.injEq, Prod.mk.injEq] at h
        obtain ⟨rfl, rfl⟩ := h
        simp only [takeTime_append h1, takeTime_append h2]
  | _ =>
    simp only at h ⊢
    split at h
    · simp only [Option.some.injEq, Prod.mk.injEq] at h
      obtain ⟨rfl, rfl⟩ := h
      rfl
    · cases h

/-- A command is decoded the same whatever words follow it. -/
theorem decode_append {timeW : Nat} {ws rest : List Word} {i : Instr} (h : decode timeW ws = .ok (i, rest))
    (more : List Word) : decode timeW (ws ++ more) = .ok (i, rest ++ more) := by
  unfold decode at h ⊢
  cases ws with
  | nil => cases h
  | cons hd ops =>
    simp only [List.cons_append] at h ⊢
    cases hs : selectorOf (selField hd) with
    | none => simp [hs] at h
    | some sel =>
      cases ho : decodeOperands timeW sel hd ops with
      | none => simp [hs, ho] at h
      | some r =>
        obtain ⟨j, rest'⟩ := r
        simp only [hs, ho, Except.ok.injEq, Prod.mk.injEq] at h
        obtain ⟨rfl, rfl⟩ := h
        simp [decodeOperands_append ho]

namespace Machine

theorem presented_words (ws : List Word) (es : List PortEvent) :
    presented (ws.map .word ++ es) = (ws ++ (presented es).1, (presented es).2) := by
  induction ws with
  | nil => rfl
  | cons w ws ih => simp [presented, ih]

/-- The port as the words it presents and what follows them. -/
theorem presented_eq (es : List PortEvent) : es = (presented es).1.map .word ++ (presented es).2 := by
  induction es with
  | nil => rfl
  | cons e es ih =>
    cases e with
    | word w => simpa [presented] using ih
    | reset => rfl

/-- What `fetch` finds when the port begins with a command's words. -/
theorem fetch_command {timeW : Nat} {ws rest : List Word} {i : Instr} {es : List PortEvent}
    (h : decode timeW ws = .ok (i, rest)) :
    fetch timeW (ws.map .word ++ es) = .command i (rest.map .word ++ es) := by
  unfold fetch
  rw [presented_words]
  simp only [decode_append h]
  rw [List.map_append, List.append_assoc, ← presented_eq]

theorem fetch_reset (timeW : Nat) (es : List PortEvent) : fetch timeW (.reset :: es) = .resetInput es := rfl

theorem fetch_nil (timeW : Nat) : fetch timeW [] = .waiting := rfl

theorem fetch_reserved {timeW : Nat} {h : Word} {es : List PortEvent} (hr : selectorOf (selField h) = none) :
    fetch timeW (.word h :: es) = .reserved es := by
  simp [fetch, presented, decode, hr]

/-- Everything a step can do (D1). -/
theorem step_cases (s : State) :
    (∃ i rest, fetch s.cfg.timeW s.port = .command i rest ∧ step s = exec i { s with port := rest }) ∨
    (∃ rest, fetch s.cfg.timeW s.port = .reserved rest ∧ step s = .next { s with port := rest }) ∨
    (∃ rest, fetch s.cfg.timeW s.port = .resetInput rest ∧ step s = .next (applyReset { s with port := rest })) ∨
    (fetch s.cfg.timeW s.port = .waiting ∧ step s = .next s) := by
  unfold step
  cases fetch s.cfg.timeW s.port with
  | command i rest => exact .inl ⟨i, rest, rfl, rfl⟩
  | reserved rest => exact .inr (.inl ⟨rest, rfl, rfl⟩)
  | resetInput rest => exact .inr (.inr (.inl ⟨rest, rfl, rfl⟩))
  | waiting => exact .inr (.inr (.inr ⟨rfl, rfl⟩))

end Machine

end Sys2Proof
end

