-- ==== Sys2Proof/Tests/Slice0.lean ====
section
/-! SUPPORT. The model's own tests. Expected values are those of spec/95_test_vectors.md (sections named at each test) and of the
examples of the rules. Then, for each statement with hypotheses, a state and operands that meet them. -/

namespace Sys2Proof.Tests

open Sys2Proof.Machine

/-- The reset state with the host presenting these words. -/
def presenting (ws : List Word) : State := { State.reset with port := ws.map .word }

/-- The state after one step, if there is one. -/
def after (s : State) : State :=
  match step s with
  | .next t => t
  | _ => s

/-- The payload one command leaves in a slot, from reset. -/
def payloadAfter (ws : List Word) (i : Fin 32) : Payload := ((after (presenting ws)).slot i).payload

/-! WellFormed: an ill-formed term for each check. -/

theorem test_wf_refuses_wide_now : (Instr.tick (2 ^ 32) 0 0 true true true).wf 32 = false := by decide
theorem test_wf_refuses_wide_elapsed : (Instr.tick 0 (2 ^ 32) 0 true true true).wf 32 = false := by decide
theorem test_wf_admits_the_widest_times : (Instr.tick (2 ^ 32 - 1) (2 ^ 32 - 1) 3 true true true).wf 32 = true := by decide

/-! Decoding: a word of each constructor, written out from R51 and R52 (sections 2.2 to 2.10). -/

theorem test_decode_wrslot : decode 32 [0x01069808] = .ok (.wrslot 6 0x98 0x08, []) := by decide
theorem test_decode_volt : decode 32 [0x02010000, 0xFFFFFFFB, 0x7B] = .ok (.volt 1 (-5) 123, []) := by decide
theorem test_decode_curr : decode 32 [0x03030000, 0x4D2, 0x672, 0x898] = .ok (.curr 3 1234 1650 2200, []) := by decide
theorem test_decode_tsbs01t : decode 32 [0x04100000, 0xFA] = .ok (.tsbs01t 16 250, []) := by decide
theorem test_decode_t125 : decode 32 [0x05070000, 0xFFFFFFEC] = .ok (.t125 7 (-20), []) := by decide
theorem test_decode_rpm : decode 32 [0x06060000, 0x3390] = .ok (.rpm 6 13200, []) := by decide
theorem test_decode_gps1675 : decode 32 [0x07080000, 0x78, 0x15E, 0xFFFFFFF1, 0x03216781, 0x00CC9C96]
    = .ok (.gps1675 8 120 350 (-15) 52520833 13409430, []) := by decide
theorem test_decode_vario : decode 32 [0x08010000, 0x19, 0x15E] = .ok (.vario 1 25 350, []) := by decide
theorem test_decode_esc8 : decode 32 [0x09080000, 1, 2, 3, 4, 5, 6, 7, 8] = .ok (.esc8 8 1 2 3 4 5 6 7 8, []) := by decide
theorem test_decode_jetcat : decode 32 [0x0A140000, 1, 2, 3, 4, 5, 6, 7, 8, 9, 10, 11, 12, 13, 14, 0x01069808]
    = .ok (.jetcat 20 1 2 3 4 5 6 7 8 9 10 11 12 13 14, [0x01069808]) := by decide
theorem test_decode_sbs10g : decode 32 [0x0B080000, 0xC, 0x22, 0x38, 0x03216781, 0x00CC9C96, 0, 0x78, 0xFA]
    = .ok (.sbs10g 8 12 34 56 52520833 13409430 0 120 250, []) := by decide
theorem test_decode_tick : decode 32 [0x1000000D, 0xC350, 0xA5C] = .ok (.tick 50000 2652 1 true true false, []) := by decide

/-- R51: with `TIME_W = 48` a time takes two words, the least significant first, and the surplus bits are ignored (entry 7). -/
theorem test_decode_tick_wide : decode 48 [0x1000001C, 0x00000001, 0xABCD0002, 0x00000A5C, 0x00000000]
    = .ok (.tick 0x000200000001 2652 0 true true true, []) := by decide
theorem test_encode_tick : encode 32 (asmTick 1000000 2652 0) = [0x1000001C, 0x000F4240, 0x00000A5C] := by decide
theorem test_decode_ignores_aux : decode 32 [0x0507FFFF, 25] = .ok (.t125 7 25, []) := by decide
theorem test_decode_reserved : decode 32 [0x0C010000, 1] = .error (.reservedSelector 0x0C) := by decide
theorem test_decode_incomplete : decode 32 [0x02010000, 165] = .error (.incomplete .volt) := by decide
theorem test_table_word : decodeTableWord 32 0x10000013 = some (.tick 0 0 3 false false true) := by decide

/-! Codecs (sections 2.3 to 2.8): at most two per command. -/

theorem test_wrslot : payloadAfter [0x01069808] 6 = ⟨0x98, 0x08⟩ := by decide
theorem test_wrslot_zero_dropped : (after (presenting [0x0100AA55])).slot 0 = resetSlot := by decide
theorem test_volt : payloadAfter [0x02010000, 165, 123] 1 = ⟨0x80, 0xA5⟩ := by decide
/-- P4: the codec's slot 0 is dropped at port 0, its slot 1 lands in `S[1]`. -/
theorem test_volt_port_zero : payloadAfter [0x02000000, 165, 123] 1 = ⟨0x00, 0x7B⟩ := by decide
theorem test_curr : payloadAfter [0x03030000, 1234, 1650, 2200] 3 = ⟨0x44, 0xD2⟩ := by decide
theorem test_curr_saturates : payloadAfter [0x03030000, 20000, 70000, 0xFFFFFFFF] 4 = ⟨0x11, 0x70⟩ := by decide
theorem test_tsbs01t : payloadAfter [0x04100000, 250] 16 = ⟨0x5E, 0x81⟩ := by decide
theorem test_tsbs01t_carry : payloadAfter [0x04100000, 32767] 16 = ⟨0x63, 0x00⟩ := by decide
theorem test_t125 : payloadAfter [0x05070000, 0xFFFFFFEC] 7 = ⟨0xFF, 0xEC⟩ := by decide
theorem test_t125_alias : payloadAfter [0x05070000, 70000] 7 = ⟨0x51, 0x70⟩ := by decide
theorem test_rpm : payloadAfter [0x06060000, 13200] 6 = ⟨0x98, 0x08⟩ := by decide
theorem test_rpm_negative : payloadAfter [0x06060000, -6] 6 = ⟨0x00, 0x00⟩ := by decide
theorem test_gps1675_time : payloadAfter [0x07080000, 120, 350, -15, 52520833, 13409430] 10 = ⟨0xB0, 0xF0⟩ := by decide
theorem test_gps1675_south : payloadAfter [0x07080000, 1500, -50, 25, -33868820, -151209296] 12 = ⟨0x21, 0x1F⟩ := by decide
theorem test_vario : payloadAfter [0x08010000, 25, 350] 2 = ⟨0x41, 0x5E⟩ := by decide
theorem test_vario_truncates : payloadAfter [0x08010000, 40000, 20000] 1 = ⟨0x9C, 0x40⟩ := by decide
theorem test_esc8_rpm : payloadAfter [0x09080000, 70000, 70000, -13200, -1, -40, 65536, 65537, 0x12345] 10 = ⟨0xF7, 0x68⟩ := by
  decide
theorem test_esc8_pwm : payloadAfter [0x09080000, 70000, 70000, 600000, -1, -40, 65536, 65537, 0x12345] 15 = ⟨0x23, 0x45⟩ := by
  decide
theorem test_jetcat_rpm : payloadAfter [0x0A010000, 4915200, 0, 0, 0, 0, 0, 0, 0, 0, 0, 0, 0, 0, 54321] 1 = ⟨0xC0, 0x00⟩ := by
  decide
theorem test_jetcat_rpm2 : payloadAfter [0x0A010000, 4915200, 0, 0, 0, 0, 0, 0, 0, 0, 0, 0, 0, 0, 54321] 14 = ⟨0x02, 0x1F⟩ := by
  decide
theorem test_sbs10g_north : payloadAfter [0x0B080000, 12, 34, 56, 52520833, 13409430, 0, 120, 250] 10 = ⟨0xC1, 0xA3⟩ := by decide
/-- A layout that is no placement of single bits (D19): payload bit 0 is the complement of `utc[0]`, bit 1 the AND of `utc[0]` and
`lat[0]`, bit 2 a constant one. -/
theorem test_layout_combines_bits :
    ([0, 1].flatMap fun u => [0, 1].map fun l =>
      layoutByte (defaultLayout.set 0 #v[.test .utc 0 (.const false) (.const true), .test .utc 0 (fieldBit .lat 0) (.const false),
          .const true, .const false, .const false, .const false, .const false, .const false]) ⟨u, l, 0, 0, 0, 0⟩ 0)
      = [5, 5, 4, 6] := by decide
theorem test_sbs10g_south : payloadAfter [0x0B080000, 23, 59, 59, -33868820, -151209296, -82000, 511, -15000] 12
    = ⟨0xD6, 0xFF⟩ := by decide

/-! The scheduler and `TICK` (sections 2.1 and 2.10). -/

/-- The start state of section 2.10: reset, then `WRSLOT 9, 0x12, 0x34`. -/
def staged9 : State := storeWrite State.reset 9 ⟨0x12, 0x34⟩

/-- `staged9` after `TICK 50000, 2652, 1` has sent slot 9. -/
def sent9 : State := sendSlot staged9 9 50000

theorem test_resolveSlot_sixteen : (List.range 8).map (fun q => ((resolveSlot (2001 + 651 * q)).map Fin.val,
    (resolveSlot (2257 + 651 * q)).map Fin.val)) = (List.range 8).map fun q => (some q, some q) := by decide
theorem test_resolveSlot_rejects : [0, 1999, 2000, 2002, 2256, 2258, 2325, 2650, 2651, 2653, 2909, 6815, 7209, 7465, 7860, 8000,
    652001, 8511, 4294967295].all (fun e => (resolveSlot e).isNone) = true := by decide
theorem test_tick_sends : (after { staged9 with port := [.word 0x1000001D, .word 50000, .word 2652] }).tx = [0x93, 0x12, 0x34] := by
  decide
theorem test_tick_rearms : ((after { staged9 with port := [.word 0x1000001D, .word 50000, .word 2652] }).slot 9).minNext = 51000 := by
  decide
theorem test_tick_labels :
    [tickLabel 50000 2652 1 false true true staged9, tickLabel 50000 8001 1 true true true staged9,
     tickLabel 50000 7209 1 true true true staged9, tickLabel 50000 2652 2 true true true staged9,
     tickLabel 50000 2652 1 true true true sent9, tickLabel 50000 2652 1 true true true staged9]
    = [some .notEnabled, some .stale, some .noWindow, some .notUsed, some .tooSoon, none] := by decide

/-! The port (R14, R57, R190; entries 8 and 9) and the host's side (R65 to R67, S3, S5). -/

theorem test_reserved_is_a_noop : after (presenting [0x00000000, 0x01069808]) = presenting [0x01069808] := by rfl
theorem test_incomplete_waits : after (presenting [0x02010000, 165]) = presenting [0x02010000, 165] := by rfl
theorem test_withFetchWord_runs : ((after (State.reset.withFetchWord 32 0x01069808)).slot 6).payload = ⟨0x98, 0x08⟩ := by decide
theorem test_volt_adapter : expandPseudo roundTowardZero (.voltV 1 (33 / 2) 900) = some [0x02010000, 165, 9000] := by
  decide +kernel
theorem test_minute_form_refuses_negative : expandPseudo roundTowardZero (.gpsDm 8 0 0 0 (-1) 0 0 0) = none := by decide +kernel
theorem test_collector_map_fills_1_to_25 :
    (collectorMap.flatMap fun e => (List.range e.2).map (e.1 + ·)) = (List.range 17).map (· + 1) ++ (List.range 8).map (· + 18) := by
  decide

/-! Witnesses: for each statement of Certificates/Slice0/Obligations.lean with hypotheses, a state and operands that meet them all
together, at a boundary of the range where a clause has one. -/

/-- `TICK 50000, 2652, 1`, the tick of section 2.10 that sends slot 9. -/
abbrev tick9 (now : Nat) : Instr := .tick now 2652 1 true true true

theorem witness_StepRunsDecodedCommand :
    decode (presenting [0x01069808, 0]).cfg.timeW [0x01069808, 0] = .ok (.wrslot 6 0x98 0x08, [0])
    ∧ (presenting [0x01069808, 0]).port = [0x01069808, 0].map PortEvent.word ++ [] := by decide
theorem witness_DecodeOfEncode : (tick9 (2 ^ 32 - 1)).wf 32 = true := by decide
theorem witness_EncodeOfDecode : decode 32 (0x0507FFFF :: [25, 7]) = .ok (.t125 7 25, [7]) := by decide
theorem witness_ReservedSelectorDoesNothing :
    (presenting [0x0C010000]).port = .word 0x0C010000 :: []
    ∧ (0x0C ≤ (selField 0x0C010000).toNat ∧ (selField 0x0C010000).toNat ≤ 0x0F)
    ∧ (presenting [0x00FFFFFF]).port = .word 0x00FFFFFF :: [] ∧ (selField 0x00FFFFFF).toNat = 0
    ∧ (presenting [0x11000000]).port = .word 0x11000000 :: [] ∧ 0x11 ≤ (selField 0x11000000).toNat := by decide
theorem witness_IgnoredHeaderBits_C :
    selField 0x02010000 = selField 0x0201FFFF ∧ 0x02 ≤ (selField 0x02010000).toNat ∧ (selField 0x02010000).toNat ≤ 0x0B
    ∧ portField 0x02010000 = portField 0x0201FFFF := by decide
theorem witness_IgnoredHeaderBits_T :
    selField 0x1000001D = selField 0x10FFFFFD ∧ selField 0x1000001D = 0x10
    ∧ (0x1000001D : Word).extractLsb' 0 5 = (0x10FFFFFD : Word).extractLsb' 0 5 := by decide
theorem witness_IgnoredHeaderBits_encoder :
    encode 32 (.rpm 6 1) = 0x06060000 :: [1] ∧ selField 0x06060000 ≠ 0x01 ∧ selField 0x06060000 ≠ 0x10
    ∧ encode 32 (tick9 0) = 0x1000001D :: [0, 2652] ∧ selField 0x1000001D = 0x10 := by decide
theorem witness_CommandLengths : decode 32 (0x1000001D :: [50000, 2652]) = .ok (tick9 50000, []) := by decide
theorem witness_WaitsForAWholeCommand :
    State.reset.port = []
    ∧ (presenting [0x02010000, 165]).port = [0x02010000, 165].map PortEvent.word
    ∧ decode (presenting [0x02010000, 165]).cfg.timeW [0x02010000, 165] = .error (.incomplete .volt) := by decide
theorem witness_ResetDiscardsAnIncompleteCommand :
    ({ staged9 with port := [.word 0x02010000, .reset] } : State).port = [0x02010000].map PortEvent.word ++ .reset :: []
    ∧ decode ({ staged9 with port := [.word 0x02010000, .reset] } : State).cfg.timeW [0x02010000]
        = .error (.incomplete .volt) := by decide
theorem witness_ResetInputRestoresEveryValue : ({ sent9 with port := [.reset] } : State).port = .reset :: [] := by decide
theorem witness_StoreWriteIsBoundsChecked :
    (0 = 0 ∨ 32 ≤ 0) ∧ (32 = 0 ∨ 32 ≤ 32) ∧ 0 < (1 : Fin 32).val ∧ 0 < (31 : Fin 32).val := by decide
theorem witness_StoreTakeAnswersAndRearms :
    ((sent9.slot 9).used = true ∧ (sent9.slot 9).minNext ≤ 51000)
    ∧ ¬ ((sent9.slot 9).used = true ∧ (sent9.slot 9).minNext ≤ 50999) := by decide
theorem witness_WritesRepeatAndTakesDoNot :
    storeTake staged9 9 50000 = some (⟨0x93, 0x12, 0x34⟩, rearmSlot staged9 9 50000)
    ∧ 50000 + 1000 < 2 ^ staged9.cfg.timeW := by decide
theorem witness_TakeReturnsOncePerSpacing :
    0 < (31 : Fin 32).val ∧ (State.reset.slot 31).minNext = 0 ∧ 50000 + 1000 < 2 ^ State.reset.cfg.timeW := by decide
theorem witness_SlotZeroIsNeverWritten :
    (State.reset.slot 0).used = false ∧ ∃ t, exec (.volt 0 165 123) State.reset = .next t :=
  ⟨by decide, _, rfl⟩
theorem witness_UsedIsNeverCleared :
    ∃ t, exec (.wrslot 9 1 2) staged9 = .next t ∧ (staged9.slot 9).used = true
      ∧ stagesSlot staged9.cfg (.wrslot 9 1 2) 9 = some ⟨1, 2⟩ :=
  ⟨_, rfl, by decide, by decide⟩
theorem witness_RolesWriteOnlyTheirFields :
    (∃ t, exec (.rpm 6 13200) sent9 = .next t) ∧ stagedBy sent9.cfg (.rpm 6 13200) ≠ none
    ∧ (∃ t, exec (tick9 50000) staged9 = .next t) ∧ stagedBy staged9.cfg (tick9 50000) = none :=
  ⟨⟨_, rfl⟩, by decide, ⟨_, rfl⟩, by decide⟩
theorem witness_CodecsReadNoState : stagedBy staged9.cfg (.volt 8 1 2) ≠ none ∧ sent9.cfg = staged9.cfg := by decide
theorem witness_LaterStagingWins :
    stagedBy State.reset.cfg (.volt 8 1 2) ≠ none ∧ stagedBy State.reset.cfg (.wrslot 9 1 2) ≠ none
    ∧ ∃ t u, exec (.volt 8 1 2) State.reset = .next t ∧ exec (.wrslot 9 1 2) t = .next u
      ∧ stagesSlot State.reset.cfg (.wrslot 9 1 2) 9 = some ⟨1, 2⟩
      ∧ stagesSlot State.reset.cfg (.wrslot 9 1 2) 8 = none
      ∧ stagesSlot State.reset.cfg (.volt 8 1 2) 8 = some ⟨0x80, 1⟩ :=
  ⟨by decide, by decide, _, _, rfl, rfl, by decide, by decide, by decide⟩
theorem witness_WrslotStagesTheRawPayload : (0 : Byte).toNat = 0 ∧ 32 ≤ (32 : Byte).toNat := by decide
theorem witness_TemperatureFieldsByRange :
    tsbs01tPayloads (-32768) = [LB (-32668)] ∧ tsbs01tPayloads 32767 = [LB 65635] ∧ tsbs01tPayloads 65535 = [LB 65635]
    ∧ t125Payloads (-16384) = [HB (-16384)] ∧ t125Payloads 0x3FFF = [HB 0x7FFF] ∧ t125Payloads 0x7FFF = [HB 0x7FFF] := by
  decide
theorem witness_Coordinate1675RoundTrip :
    coord1675 255999999 = [⟨255, 0x0F⟩, ⟨0x42, 0x3F⟩] ∧ (0 : Int) ≤ 255999999 ∧ (255999999 : Int) < 256000000
    ∧ coord1675 256000000 = [⟨0, 0⟩, ⟨0, 0⟩] ∧ (0 : Int) ≤ 256000000
    ∧ coord1675 (-1) = [⟨0, 0x1F⟩, ⟨0, 1⟩] ∧ (-1 : Int) < 0 := by decide
theorem witness_GpsTimeAndCoordinateFields :
    (((-90000000 : Int).natAbs : Nat) : Int) ≤ 90000000 ∧ (((180000000 : Int).natAbs : Nat) : Int) ≤ 180000000 := by decide
/-- `2^33 - 1` and `2^32` as two words at the smallest `TIME_W` that takes two. -/
theorem witness_TickWordsDecode :
    33 ≤ 33 ∧ 33 ≤ 64 ∧ (1 : Word).toNat < 2 ^ (33 - 32)
    ∧ decode 33 [0x1055FFE9, 0xFFFFFFFF, 1, 0, 1] = .ok (.tick (2 ^ 33 - 1) (2 ^ 32) 1 false true false, []) := by decide
theorem witness_ResolveSlotClosedForm : resolveSlot 2001 = some 0 ∧ resolveSlot 6814 = some 7 := by decide
theorem witness_ResolveSlotKeepsTheWindow :
    1999 < 2000
    ∧ 2000 ≤ 3558 ∧ (3558 - 2000 : Int) - (((3558 - 2000) % 650 + 255) % 256 : Nat) * 650 > 325
    ∧ resolveSlot 2257 = some 0 := by decide
theorem witness_TickSendsTheFrame :
    2652 ≤ 8000 ∧ resolveSlot 2652 = some 1 ∧ (9 : Fin 32).val = (1 : BitVec 2).toNat * 8 + (1 : Fin 8).val
    ∧ (sent9.slot 9).used = true ∧ (sent9.slot 9).minNext ≤ 51000 := by decide
theorem witness_TickIsSilentOtherwise :
    8000 < 8001 ∧ resolveSlot 8000 = none
    ∧ (∃ (q : Fin 8) (idx : Fin 32), resolveSlot 2652 = some q ∧ idx.val = (2 : BitVec 2).toNat * 8 + q.val
        ∧ (staged9.slot idx).used = false)
    ∧ ∃ (q : Fin 8) (idx : Fin 32), resolveSlot 2652 = some q ∧ idx.val = (1 : BitVec 2).toNat * 8 + q.val
        ∧ 50999 < (sent9.slot idx).minNext :=
  ⟨by decide, by decide, ⟨1, 17, by decide, by decide, by decide⟩, ⟨1, 9, by decide, by decide, by decide⟩⟩
theorem witness_TickSendsOnlyAtSixteenInstants : ∃ t, exec (tick9 50000) staged9 = .next t ∧ t ≠ staged9 :=
  ⟨_, rfl, by decide⟩
theorem witness_TxGrowsByOneFrame : ∃ t, exec (tick9 50000) staged9 = .next t := ⟨_, rfl⟩
theorem witness_StepKeepsTheInvariant :
    State.Inv { sent9 with port := [.word 0x01069808] }
    ∧ ∃ t, step { sent9 with port := [.word 0x01069808] } = .next t :=
  ⟨⟨by decide, by decide, by decide, by decide, by decide⟩, _, rfl⟩
theorem witness_TxHoldsOnlyStagedFrames :
    AccountsFor [(9, ⟨0x12, 0x34⟩)] { staged9 with port := [.word 0x1000001D, .word 50000, .word 2652] }
    ∧ ∃ t, step { staged9 with port := [.word 0x1000001D, .word 50000, .word 2652] } = .next t :=
  ⟨⟨by decide, by decide, trivial⟩, _, rfl⟩
theorem witness_StagedPayloadIsSent :
    stagesSlot State.reset.cfg (.wrslot 9 0x12 0x34) 9 = some ⟨0x12, 0x34⟩
    ∧ (∀ c ∈ [Instr.rpm 6 13200], stagesSlot State.reset.cfg c 9 = none)
    ∧ ∃ u, execAll [.wrslot 9 0x12 0x34, .rpm 6 13200] State.reset = .next u
      ∧ 2652 ≤ 8000 ∧ resolveSlot 2652 = some 1 ∧ (9 : Fin 32).val = (1 : BitVec 2).toNat * 8 + (1 : Fin 8).val
      ∧ (u.slot 9).minNext ≤ 50000 :=
  ⟨by decide, by decide, _, rfl, by decide, by decide, by decide, by decide⟩
theorem witness_SpacingHoldsAcrossCommands :
    ∃ t u, exec (tick9 50000) staged9 = .next t ∧ t ≠ staged9 ∧ resolveSlot 2652 = some 1
      ∧ 50000 + 1000 < 2 ^ staged9.cfg.timeW
      ∧ (∀ n e pg a b c, Instr.tick n e pg a b c ∈ [tick9 50999] → n < 50000 + 1000)
      ∧ execAll [tick9 50999] t = .next u ∧ 50999 < 50000 + 1000 ∧ resolveSlot 2908 = some 1 :=
  ⟨_, _, rfl, by decide, by decide, by decide,
    fun n e pg a b c h => by simp only [List.mem_singleton, Instr.tick.injEq] at h; omega, rfl, by decide, by decide⟩
theorem witness_WrapBreaksSpacingOnce :
    18 ≤ staged9.cfg.timeW ∧ 2 ^ 32 - 1 < 2 ^ staged9.cfg.timeW ∧ 2 ^ staged9.cfg.timeW ≤ 2 ^ 32 - 1 + 1000
    ∧ storeTake staged9 9 (2 ^ 32 - 1) = some (⟨0x93, 0x12, 0x34⟩, rearmSlot staged9 9 (2 ^ 32 - 1)) := by decide
theorem witness_AliasesPresentTheSameWords :
    (presenting [0]).port = .word 0x00000000 :: [] := by decide
theorem witness_GpsInputFormsAgree : (0 : Rat) ≤ 52 ∧ (0 : Rat) ≤ 31 := by decide +kernel

end Sys2Proof.Tests
end

namespace Sys2Proof.Machine

/-! The invariant of R23, kept by each thing a step can do. -/

/-- Frames after frames are frames (R23(c)). -/
theorem txFramed_append {c : Config} {bytes more : List Byte} (h : txFramed c bytes = true)
    (hmore : txFramed c more = true) : txFramed c (bytes ++ more) = true := by
  induction bytes using txFramed.induct with
  | case1 => exact hmore
  | case2 sid b0 b1 rest ih =>
    simp only [txFramed, List.cons_append, Bool.and_eq_true] at h ⊢
    exact ⟨h.1, ih h.2⟩
  | case3 bytes hne hshort => simp [txFramed] at h

/-- The three bytes of a frame of one of the slots 1 to 31 are framed (R31). -/
theorem txFramed_frame (c : Config) {i : Fin 32} (hi : 0 < i.val) (b0 b1 : Byte) :
    txFramed c [slotId c i, b0, b1] = true := by
  simp only [txFramed, Bool.and_true, List.any_eq_true, Bool.and_eq_true, decide_eq_true_eq, beq_iff_eq]
  exact ⟨i, List.mem_finRange i, hi, rfl⟩

/-- No list of writes reaches slot 0 (R80). -/
@[simp] theorem writtenAt_zero (idx : Nat) (ps : List Payload) : writtenAt idx ps 0 = none := by
  simp [writtenAt]

/-- Sending a slot, read back at any slot: the sent one is re-armed (R82, R83). -/
theorem sendSlot_slot (s : State) (i : Fin 32) (now : Nat) (j : Fin 32) :
    (sendSlot s i now).slot j =
      if j = i then (s.slot i).rearm ((now + minSpacing) % 2 ^ s.cfg.timeW) else s.slot j := by
  rw [sendSlot, emit_slot, rearmSlot_slot]

@[simp] theorem sendSlot_cfg (s : State) (i : Fin 32) (now : Nat) : (sendSlot s i now).cfg = s.cfg := rfl

@[simp] theorem sendSlot_port (s : State) (i : Fin 32) (now : Nat) : (sendSlot s i now).port = s.port := rfl

@[simp] theorem sendSlot_tx (s : State) (i : Fin 32) (now : Nat) :
    (sendSlot s i now).tx = s.tx ++ [slotId s.cfg i, (s.slot i).payload.b0, (s.slot i).payload.b1] := rfl

/-- A used slot is not slot 0 (R23(a)). -/
theorem State.Inv.pos_of_used {s : State} (h : s.Inv) {i : Fin 32} (hu : (s.slot i).used = true) : 0 < i.val := by
  refine Nat.pos_of_ne_zero fun h0 => ?_
  obtain rfl : i = 0 := Fin.ext h0
  rw [h.slotZero] at hu
  cases hu

/-- What the host presents is no part of the invariant. -/
theorem State.Inv.with_port {s : State} (h : s.Inv) (es : List PortEvent) : ({ s with port := es } : State).Inv :=
  ⟨h.params, h.slotZero, h.unusedClean, h.framed, h.timeWidth⟩

/-- The writes of a staging command keep the invariant (R80). -/
theorem State.Inv.storeSeq {s : State} (h : s.Inv) (idx : Nat) (ps : List Payload) :
    (storeSeq s idx ps).Inv where
  params := by rw [storeSeq_cfg]; exact h.params
  slotZero := by rw [storeSeq_slot, writtenAt_zero]; exact h.slotZero
  unusedClean i hu := by
    rw [storeSeq_slot] at hu ⊢
    cases hw : writtenAt idx ps i with
    | none => rw [hw] at hu; exact h.unusedClean i hu
    | some p => rw [hw] at hu; cases hu
  framed := by rw [storeSeq_cfg, storeSeq_tx]; exact h.framed
  timeWidth i := by
    rw [storeSeq_slot, storeSeq_cfg]
    cases writtenAt idx ps i with
    | none => exact h.timeWidth i
    | some p => exact h.timeWidth i

/-- Sending a used slot keeps the invariant: the frame is that of a slot from 1 on, and the new `minNext` is reduced modulo
`2 ^ TIME_W` (R82, R83). -/
theorem State.Inv.sendSlot {s : State} (h : s.Inv) {i : Fin 32} (hu : (s.slot i).used = true) (now : Nat) :
    (sendSlot s i now).Inv where
  params := h.params
  slotZero := by
    have hne : (0 : Fin 32) ≠ i := fun e => (h.pos_of_used hu).ne (congrArg Fin.val e)
    rw [sendSlot_slot, if_neg hne]
    exact h.slotZero
  unusedClean j hj := by
    rw [sendSlot_slot] at hj ⊢
    split at hj
    next => rw [Slot.rearm_used, hu] at hj; cases hj
    next hne => rw [if_neg hne]; exact h.unusedClean j hj
  framed := by
    rw [sendSlot_cfg, sendSlot_tx]
    exact txFramed_append h.framed (txFramed_frame s.cfg (h.pos_of_used hu) _ _)
  timeWidth j := by
    rw [sendSlot_slot, sendSlot_cfg]
    split
    next => exact Nat.mod_lt _ (Nat.two_pow_pos _)
    next => exact h.timeWidth j

/-- The reset input gives the invariant from any state with admitted parameters (R190, R192). -/
theorem applyReset_inv {s : State} (h : s.cfg.wf) : (applyReset s).Inv where
  params := h
  slotZero := by rw [applyReset_slot]; rfl
  unusedClean i _ := applyReset_slot s i
  framed := rfl
  timeWidth i := by rw [applyReset_slot]; exact Nat.two_pow_pos _

/-- Every command keeps the invariant (R23). -/
theorem State.Inv.exec {s t : State} (h : s.Inv) {i : Instr} (he : exec i s = .next t) : t.Inv := by
  rcases exec_cases i s with ⟨idx, ps, -, hs⟩ | ⟨-, hs | ⟨n, now, hu, -, hs⟩⟩ <;>
    obtain rfl := Host.Outcome.next.inj (hs.symm.trans he)
  · exact h.storeSeq idx ps
  · exact h
  · exact h.sendSlot hu now

/-- Every step keeps the invariant (R23). -/
theorem State.Inv.step {s t : State} (h : s.Inv) (he : step s = .next t) : t.Inv := by
  rcases step_cases s with ⟨i, rest, -, hs⟩ | ⟨rest, -, hs⟩ | ⟨rest, -, hs⟩ | ⟨-, hs⟩
  · exact (h.with_port rest).exec (hs.symm.trans he)
  all_goals obtain rfl := Host.Outcome.next.inj (hs.symm.trans he)
  · exact h.with_port rest
  · exact applyReset_inv h.params
  · exact h

/-- Settles O51: `step_cases` lists what a step can do, and each of these keeps the invariant. -/
theorem stepKeepsTheInvariant : Obligations.StepKeepsTheInvariant :=
  fun _ _ h he => h.step he

end Sys2Proof.Machine

namespace Sys2Proof.Machine

/-! The masks and the two byte orders on the two's-complement form of an integer (R7, R32, R62). -/

/-- What `n` shares with `m` is taken from `n` without a borrow: the bits of `n` that `m` does not have remain. -/
theorem testBit_sub_and (n m k : Nat) : (n - (n &&& m)).testBit k = (n.testBit k && !m.testBit k) := by
  have hle : n &&& m ≤ n := Nat.and_le_left
  have hlow : (n &&& m) % 2 = 1 ↔ n % 2 = 1 ∧ m % 2 = 1 := Nat.and_mod_two_eq_one
  induction k generalizing n m with
  | zero =>
    rw [Bool.eq_iff_iff]
    simp only [Nat.testBit_zero, Bool.and_eq_true, Bool.not_eq_true', decide_eq_true_eq, decide_eq_false_iff_not]
    omega
  | succ k ih =>
    have hhalf : (n - (n &&& m)) / 2 = n / 2 - (n / 2 &&& m / 2) := by
      rw [← Nat.and_div_two]
      omega
    simp only [Nat.testBit_succ, hhalf]
    exact ih _ _ Nat.and_le_left Nat.and_mod_two_eq_one

/-- The AND and the OR of two numbers have the same sum as the numbers. -/
theorem and_add_or (n m : Nat) : (n &&& m) + (n ||| m) = n + m := by
  induction n using Nat.strongRecOn generalizing m with
  | ind n ih =>
    rcases Nat.eq_zero_or_pos n with rfl | hpos
    · simp
    · have hhalf := ih (n / 2) (by omega) (m / 2)
      rw [← Nat.and_div_two, ← Nat.or_div_two] at hhalf
      have handLow : (n &&& m) % 2 = 1 ↔ n % 2 = 1 ∧ m % 2 = 1 := Nat.and_mod_two_eq_one
      have horLow : (n ||| m) % 2 = 1 ↔ n % 2 = 1 ∨ m % 2 = 1 := Nat.or_mod_two_eq_one
      omega

/-- Each bit of the OR with a mask (R7). -/
theorem bitAt_orMask (a : Int) (m k : Nat) : bitAt (orMask a m) k = (bitAt a k || m.testBit k) := by
  cases a with
  | ofNat n => simp only [Int.ofNat_eq_natCast, orMask_natCast, bitAt_natCast, Nat.testBit_or]
  | negSucc n => simp only [orMask, bitAt_negSucc, testBit_sub_and, Bool.not_and, Bool.not_not]

/-- Each bit of the AND with a mask (R7). -/
theorem bitAt_andMask (a : Int) (m k : Nat) : bitAt (andMask a m) k = (bitAt a k && m.testBit k) := by
  cases a with
  | ofNat n => simp only [Int.ofNat_eq_natCast, andMask_natCast, bitAt_natCast, Nat.testBit_and]
  | negSucc n =>
    simp only [andMask, Int.ofNat_eq_natCast, bitAt_natCast, bitAt_negSucc, Nat.and_comm n m, testBit_sub_and, Bool.and_comm]

/-- The OR with one bit adds it where it is not set (R62). -/
theorem orMask_two_pow (a : Int) (k : Nat) : orMask a (2 ^ k) = if bitAt a k then a else a + 2 ^ k := by
  have hcast : (2 : Int) ^ k = ((2 ^ k : Nat) : Int) := by norm_cast
  rw [hcast]
  cases a with
  | ofNat n =>
    have hsum := and_add_or n (2 ^ k)
    rw [Nat.and_two_pow] at hsum
    rw [Int.ofNat_eq_natCast, orMask_natCast, bitAt_natCast]
    generalize 2 ^ k = p at hsum ⊢
    cases hb : n.testBit k <;> simp [hb] at hsum ⊢ <;> omega
  | negSucc n =>
    have hle : n.testBit k = true → 2 ^ k ≤ n := Nat.ge_two_pow_of_testBit
    rw [orMask, bitAt_negSucc, Nat.and_two_pow]
    generalize 2 ^ k = p at hle ⊢
    cases hb : n.testBit k with
    | false => simp
    | true =>
      have hp := hle hb
      simp [Int.negSucc_eq]
      omega

/-- Settles O40: the bits of either result, and the OR with one bit. -/
theorem masksActOnTwosComplement : Obligations.MasksActOnTwosComplement :=
  ⟨bitAt_orMask, bitAt_andMask, orMask_two_pow⟩

/-- A byte of an integer is a number: the integer shifted down to it, modulo 256 (R6). -/
theorem byteAt_toNat (v : Int) (n : Nat) : ((byteAt v n).toNat : Int) = v / 2 ^ n % 256 := by
  rw [byteAt, BitVec.toNat_ofInt, Int.shiftRight_eq_div_pow, Int.toNat_of_nonneg (Int.emod_nonneg _ (by decide))]
  norm_cast

/-- Settles O41: either byte order splits `v` modulo 65536 into its bytes at bits 8 and 0. -/
theorem payloadHoldsTheLowSixteenBits : Obligations.PayloadHoldsTheLowSixteenBits := by
  intro v
  have hbytes : ((byteAt v 8).toNat * 256 + (byteAt v 0).toNat : Int) = v % 65536 := by
    rw [byteAt_toNat, byteAt_toNat]
    omega
  exact ⟨hbytes, hbytes⟩

end Sys2Proof.Machine

namespace Sys2Proof.Machine

/-! Every function of the six `SBS10G` fields is a layout (R137, entry 5). -/

/-- A payload bit that the answers to a list of field-bit tests determine on the fields of `P` is given by a decision tree there:
test them in turn, splitting `P` by each answer. -/
theorem exists_source_of_determined (bit : GpsFields → Bool) (tests : List (GpsField × Nat)) (P : GpsFields → Prop)
    (hdet : ∀ F G, P F → P G → (∀ q ∈ tests, bitAt (gpsField F q.1) q.2 = bitAt (gpsField G q.1) q.2) → bit F = bit G) :
    ∃ source, ∀ F, P F → sourceBit F source = bit F := by
  induction tests generalizing P with
  | nil =>
    by_cases hP : ∃ F, P F
    · obtain ⟨F, hF⟩ := hP
      exact ⟨.const (bit F), fun G hG => hdet F G hF hG (by simp)⟩
    · exact ⟨.const false, fun G hG => absurd ⟨G, hG⟩ hP⟩
  | cons q tests ih =>
    have branch (b : Bool) : ∃ source, ∀ F, P F ∧ bitAt (gpsField F q.1) q.2 = b → sourceBit F source = bit F := by
      refine ih _ fun F G hF hG hagree => hdet F G hF.1 hG.1 ?_
      exact List.forall_mem_cons.mpr ⟨hF.2.trans hG.2.symm, hagree⟩
    obtain ⟨ifSet, hset⟩ := branch true
    obtain ⟨ifClear, hclear⟩ := branch false
    refine ⟨.test q.1 q.2 ifSet ifClear, fun F hF => ?_⟩
    rw [sourceBit]
    split
    next hq => exact hset F ⟨hF, hq⟩
    next hq => exact hclear F ⟨hF, by simpa using hq⟩

/-- An integer of `n` bits beside its sign: its two's-complement form fits in `n + 1` bits. -/
def FitsIn (n : Nat) (a : Int) : Prop := -2 ^ n ≤ a ∧ a < 2 ^ n

/-- The bits from `n` on of an integer with `n` magnitude bits are its sign (R6). -/
theorem bitAt_of_fitsIn {n k : Nat} {a : Int} (ha : FitsIn n a) (hk : n ≤ k) : bitAt a k = decide (a < 0) := by
  obtain ⟨hlo, hhi⟩ := ha
  have hpow : 2 ^ n ≤ 2 ^ k := Nat.pow_le_pow_right (by decide) hk
  cases a with
  | ofNat m =>
    have hm : m < 2 ^ n := by simp at hhi; exact_mod_cast hhi
    rw [Int.ofNat_eq_natCast, bitAt_natCast, Nat.testBit_lt_two_pow (hm.trans_le hpow)]
    simp
  | negSucc m =>
    have hm : m < 2 ^ n := by
      rw [Int.negSucc_eq] at hlo
      have : (m : Int) < 2 ^ n := by omega
      exact_mod_cast this
    rw [bitAt_negSucc, Nat.testBit_lt_two_pow (hm.trans_le hpow)]
    simp

/-- An integer is given by its sign and the bits of its two's-complement form (R6). -/
theorem eq_of_bitAt_eq {a b : Int} (hsign : a < 0 ↔ b < 0) (h : ∀ k, bitAt a k = bitAt b k) : a = b := by
  cases a <;> cases b
  case ofNat.ofNat m n =>
    simp only [Int.ofNat_eq_natCast, bitAt_natCast] at h
    exact congrArg Int.ofNat (Nat.eq_of_testBit_eq h)
  case negSucc.negSucc m n =>
    simp only [bitAt_negSucc, Bool.not_inj_iff] at h
    exact congrArg Int.negSucc (Nat.eq_of_testBit_eq h)
  all_goals simp at hsign; omega

/-- Integers of `n` magnitude bits are equal when bits `0 .. n` are. -/
theorem eq_of_fitsIn_of_bitAt_eq {n : Nat} {a b : Int} (ha : FitsIn n a) (hb : FitsIn n b)
    (h : ∀ k ≤ n, bitAt a k = bitAt b k) : a = b := by
  have hsign : decide (a < 0) = decide (b < 0) := by
    rw [← bitAt_of_fitsIn ha le_rfl, ← bitAt_of_fitsIn hb le_rfl, h n le_rfl]
  refine eq_of_bitAt_eq (decide_eq_decide.mp hsign) fun k => ?_
  rcases Nat.le_total k n with hk | hk
  · exact h k hk
  · rw [bitAt_of_fitsIn ha hk, bitAt_of_fitsIn hb hk, hsign]

/-- Every field fits in 45 bits: 44 and a sign. -/
def GpsFields.Bounded (F : GpsFields) : Prop := ∀ f, FitsIn 44 (gpsField F f)

theorem GpsFields.ext_gpsField {F G : GpsFields} (h : ∀ f, gpsField F f = gpsField G f) : F = G := by
  cases F; cases G
  simp only [GpsFields.mk.injEq]
  exact ⟨h .utc, h .lat, h .lon, h .alt, h .speed, h .vario⟩

/-- The tests that tell bounded fields apart: bits 0 to 44 of all six. -/
def boundedTests : List (GpsField × Nat) :=
  [GpsField.utc, .lat, .lon, .alt, .speed, .vario] ×ˢ List.range 45

theorem mem_boundedTests (f : GpsField) {k : Nat} (hk : k ≤ 44) : (f, k) ∈ boundedTests := by
  refine List.mem_product.mpr ⟨?_, List.mem_range.mpr (by omega)⟩
  cases f <;> decide

/-- Bounded fields that agree on these tests are equal. -/
theorem GpsFields.Bounded.eq_of_tests {F G : GpsFields} (hF : F.Bounded) (hG : G.Bounded)
    (h : ∀ q ∈ boundedTests, bitAt (gpsField F q.1) q.2 = bitAt (gpsField G q.1) q.2) : F = G :=
  GpsFields.ext_gpsField fun f => eq_of_fitsIn_of_bitAt_eq (hF f) (hG f) fun _ hk => h _ (mem_boundedTests f hk)

/-- On bounded fields every payload bit is a decision tree's. -/
theorem exists_source_of_bounded (bit : GpsFields → Bool) :
    ∃ source, ∀ F : GpsFields, F.Bounded → sourceBit F source = bit F :=
  exists_source_of_determined bit boundedTests GpsFields.Bounded fun _ _ hF hG h => congrArg bit (hF.eq_of_tests hG h)

/-! The fields of every operand are bounded. -/

/-- The OR with one bit adds at most that bit (R62). -/
theorem orMask_two_pow_bounds (a : Int) (k : Nat) : a ≤ orMask a (2 ^ k) ∧ orMask a (2 ^ k) ≤ a + 2 ^ k := by
  have hpos : (0 : Int) < 2 ^ k := by positivity
  rw [orMask_two_pow]
  split <;> omega

/-- A coordinate field is at most the operand's magnitude and the hemisphere bit: ten-thousandths of a minute are fewer than
micro-degrees (R132, R133). -/
theorem latLon10G_bounds (x : Int) (hemibit : Nat) :
    0 ≤ latLon10G x hemibit ∧ latLon10G x hemibit ≤ x.natAbs + 2 ^ hemibit := by
  have hpos : (0 : Int) < 2 ^ hemibit := by positivity
  have hor := orMask_two_pow_bounds ((6 * (x.natAbs : Int) + 5) / 10) hemibit
  rw [latLon10G, truncDiv_of_nonneg (by omega)]
  split <;> omega

/-- R134: the altitude field fits in 13 bits. -/
theorem alt10G_bounds (alt : Int) : 0 ≤ alt10G alt ∧ alt10G alt < 2 ^ 13 := by
  unfold alt10G
  split
  next h => rw [truncDiv_of_nonneg (by omega)]; omega
  next => decide

/-- R135: the speed field fits in 10 bits. -/
theorem speed10G_bounds (speed : Int) : 0 ≤ speed10G speed ∧ speed10G speed < 2 ^ 10 := by
  have hor := orMask_two_pow_bounds speed 9
  norm_num only at hor
  unfold speed10G
  split <;> omega

/-- R136: the vario field fits in 14 bits. -/
theorem vario10G_bounds (vario : Int) : 0 ≤ vario10G vario ∧ vario10G vario < 2 ^ 14 := by
  have hor := orMask_two_pow_bounds ((vario + 15005) / 10) 12
  norm_num only at hor
  unfold vario10G
  split
  next h => rw [truncDiv_of_nonneg (by omega)]; omega
  next => decide

/-- The fields of operand words are bounded: the widest is the time of day, below `2 ^ 44` in magnitude. -/
theorem gpsFields_bounded (h m sec lat lon alt speed vario : Word) :
    (gpsFields h.toInt m.toInt sec.toInt lat.toInt lon.toInt alt.toInt speed.toInt vario.toInt).Bounded := by
  have word (w : Word) : -2 ^ 31 ≤ w.toInt ∧ w.toInt < 2 ^ 31 := ⟨BitVec.le_toInt w, BitVec.toInt_lt⟩
  intro f
  unfold FitsIn
  cases f <;> simp only [gpsField, gpsFields]
  case utc => have := word h; have := word m; have := word sec; omega
  case lat => have := word lat; have := latLon10G_bounds lat.toInt 26; omega
  case lon => have := word lon; have := latLon10G_bounds lon.toInt 27; omega
  case alt => have := alt10G_bounds alt.toInt; omega
  case speed => have := speed10G_bounds speed.toInt; omega
  case vario => have := vario10G_bounds vario.toInt; omega

/-! From bits to payloads. -/

/-- Byte `j` of eight payloads, counted as in the second description of R137. -/
def payloadByte (ps : Vector Payload 8) (j : Fin 16) : Byte :=
  if j.val % 2 = 0 then ps[j.val / 2].b0 else ps[j.val / 2].b1

/-- A layout that gives every byte of eight payloads gives the payloads. -/
theorem layoutPayloads_eq_toList {layout : Layout} {F : GpsFields} {ps : Vector Payload 8}
    (h : ∀ j, layoutByte layout F j = payloadByte ps j) : layoutPayloads layout F = ps.toList := by
  have hlist : ps.toList = (List.finRange 8).map fun k => ps[k] := by
    refine List.ext_getElem (by simp) fun k _ _ => ?_
    simp
  rw [hlist]
  refine List.map_congr_left fun k _ => ?_
  have heven : 2 * k.val / 2 = k.val := by omega
  have hodd : (2 * k.val + 1) / 2 = k.val := by omega
  have hmod : (2 * k.val + 1) % 2 = 1 := by omega
  simp only [h, payloadByte, Nat.mul_mod_right, hmod, heven, hodd, if_true, one_ne_zero, if_false, Fin.getElem_fin]

/-- Settles O60: each payload bit of the function is a bit of bounded fields, so it has its own decision tree. -/
theorem everyLayoutFunctionIsALayout : Obligations.EveryLayoutFunctionIsALayout := by
  intro g
  choose source hsource using fun (j : Fin 16) (i : Fin 8) =>
    exists_source_of_bounded fun F => (payloadByte (g F) j).getLsbD i.val
  refine ⟨Vector.ofFn fun j => Vector.ofFn (source j), fun h m sec lat lon alt speed vario => ?_⟩
  refine layoutPayloads_eq_toList fun j => BitVec.eq_of_getLsbD_eq fun i hi => ?_
  rw [layoutByte_getLsbD _ _ j ⟨i, hi⟩]
  simpa using hsource j ⟨i, hi⟩ _ (gpsFields_bounded h m sec lat lon alt speed vario)

end Sys2Proof.Machine

namespace Sys2Proof.Machine

/-! What a command leaves in each slot, field by field (R13, R179). -/

/-- A codec's writes give a slot they reach their payload (R35). -/
@[simp] theorem storeSeq_slot_payload (s : State) (idx : Nat) (ps : List Payload) (j : Fin 32) :
    ((storeSeq s idx ps).slot j).payload = (writtenAt idx ps j).getD (s.slot j).payload := by
  rw [storeSeq_slot]
  cases writtenAt idx ps j <;> rfl

/-- A codec's writes set `used` where they reach and clear it nowhere (R15). -/
@[simp] theorem storeSeq_slot_used (s : State) (idx : Nat) (ps : List Payload) (j : Fin 32) :
    ((storeSeq s idx ps).slot j).used = ((writtenAt idx ps j).isSome || (s.slot j).used) := by
  rw [storeSeq_slot]
  cases writtenAt idx ps j <;> rfl

/-- A codec's writes touch no `minNext` (R81). -/
@[simp] theorem storeSeq_slot_minNext (s : State) (idx : Nat) (ps : List Payload) (j : Fin 32) :
    ((storeSeq s idx ps).slot j).minNext = (s.slot j).minNext := by
  rw [storeSeq_slot]
  cases writtenAt idx ps j <;> rfl

/-- A send keeps every payload (R82). -/
@[simp] theorem sendSlot_slot_payload (s : State) (i : Fin 32) (now : Nat) (j : Fin 32) :
    ((sendSlot s i now).slot j).payload = (s.slot j).payload := by
  rw [sendSlot_slot]
  split
  next h => rw [h, Slot.rearm_payload]
  next => rfl

/-- A send keeps every `used` bit (R82). -/
@[simp] theorem sendSlot_slot_used (s : State) (i : Fin 32) (now : Nat) (j : Fin 32) :
    ((sendSlot s i now).slot j).used = (s.slot j).used := by
  rw [sendSlot_slot]
  split
  next h => rw [h, Slot.rearm_used]
  next => rfl

/-- The slots a command stages are those its list of writes reaches. -/
theorem stagesSlot_of_some {c : Config} {i : Instr} {idx : Nat} {ps : List Payload}
    (h : stagedBy c i = some (idx, ps)) (j : Fin 32) : stagesSlot c i j = writtenAt idx ps j := by
  rw [stagesSlot, h]

/-- A command that stages nothing stages no slot. -/
theorem stagesSlot_of_none {c : Config} {i : Instr} (h : stagedBy c i = none) (j : Fin 32) :
    stagesSlot c i j = none := by
  rw [stagesSlot, h]

/-- No command stages slot 0 (R80). -/
@[simp] theorem stagesSlot_zero (c : Config) (i : Instr) : stagesSlot c i 0 = none := by
  cases h : stagedBy c i with
  | none => exact stagesSlot_of_none h 0
  | some r => rw [stagesSlot_of_some (idx := r.1) (ps := r.2) h, writtenAt_zero]

/-- The state after a command: its writes done, or as it was, or one used slot sent. -/
theorem eq_of_exec {i : Instr} {s t : State} (he : exec i s = .next t) :
    (∃ idx ps, stagedBy s.cfg i = some (idx, ps) ∧ t = storeSeq s idx ps) ∨
      (stagedBy s.cfg i = none ∧
        (t = s ∨ ∃ (n : Fin 32) (now : Nat), (s.slot n).used = true ∧ t = sendSlot s n now)) := by
  rcases exec_cases i s with ⟨idx, ps, hst, hs⟩ | ⟨hst, hs | ⟨n, now, hu, -, hs⟩⟩ <;>
    obtain rfl := Host.Outcome.next.inj (hs.symm.trans he)
  · exact .inl ⟨idx, ps, hst, rfl⟩
  · exact .inr ⟨hst, .inl rfl⟩
  · exact .inr ⟨hst, .inr ⟨n, now, hu, rfl⟩⟩

section
variable {i : Instr} {s t : State}

/-- After a command a slot holds what the command staged in it, else what it held. -/
theorem exec_slot_payload (he : exec i s = .next t) (j : Fin 32) :
    (t.slot j).payload = (stagesSlot s.cfg i j).getD (s.slot j).payload := by
  rcases eq_of_exec he with ⟨idx, ps, hst, rfl⟩ | ⟨hst, rfl | ⟨n, now, -, rfl⟩⟩
  · rw [stagesSlot_of_some hst, storeSeq_slot_payload]
  · rw [stagesSlot_of_none hst, Option.getD_none]
  · rw [stagesSlot_of_none hst, Option.getD_none, sendSlot_slot_payload]

/-- After a command a slot is used if the command staged it or it was used (R15). -/
theorem exec_slot_used (he : exec i s = .next t) (j : Fin 32) :
    (t.slot j).used = ((stagesSlot s.cfg i j).isSome || (s.slot j).used) := by
  rcases eq_of_exec he with ⟨idx, ps, hst, rfl⟩ | ⟨hst, rfl | ⟨n, now, -, rfl⟩⟩
  · rw [stagesSlot_of_some hst, storeSeq_slot_used]
  · rw [stagesSlot_of_none hst, Option.isSome_none, Bool.false_or]
  · rw [stagesSlot_of_none hst, Option.isSome_none, Bool.false_or, sendSlot_slot_used]

/-- A command that stages writes no `minNext` (R88). -/
theorem exec_slot_minNext (he : exec i s = .next t) (hst : stagedBy s.cfg i ≠ none) (j : Fin 32) :
    (t.slot j).minNext = (s.slot j).minNext := by
  rcases eq_of_exec he with ⟨idx, ps, -, rfl⟩ | ⟨hnone, -⟩
  · exact storeSeq_slot_minNext s idx ps j
  · exact absurd hnone hst

/-- A command leaves `TX` as it was, or it stages nothing and appends the frame of one used slot (R155, R156). -/
theorem exec_tx (he : exec i s = .next t) :
    t.tx = s.tx ∨ (stagedBy s.cfg i = none ∧ ∃ n : Fin 32, (s.slot n).used = true
      ∧ t.tx = s.tx ++ [slotId s.cfg n, (s.slot n).payload.b0, (s.slot n).payload.b1]) := by
  rcases eq_of_exec he with ⟨idx, ps, -, rfl⟩ | ⟨hst, rfl | ⟨n, now, hu, rfl⟩⟩
  · exact .inl (storeSeq_tx s idx ps)
  · exact .inl rfl
  · exact .inr ⟨hst, n, hu, sendSlot_tx s n now⟩

/-- No command changes what the host still presents (R14). -/
theorem exec_port (he : exec i s = .next t) : t.port = s.port := by
  rcases eq_of_exec he with ⟨idx, ps, -, rfl⟩ | ⟨-, rfl | ⟨n, now, -, rfl⟩⟩
  · exact storeSeq_port s idx ps
  · rfl
  · exact sendSlot_port s n now

/-- No command changes the parameters (R22). -/
theorem exec_cfg (he : exec i s = .next t) : t.cfg = s.cfg := by
  rcases eq_of_exec he with ⟨idx, ps, -, rfl⟩ | ⟨-, rfl | ⟨n, now, -, rfl⟩⟩
  · exact storeSeq_cfg s idx ps
  · rfl
  · exact sendSlot_cfg s n now

end

/-- Every command has a next state (R170). -/
theorem exec_total (i : Instr) (s : State) : ∃ t, exec i s = .next t := by
  rcases exec_cases i s with ⟨_, _, -, hs⟩ | ⟨-, hs | ⟨_, _, -, -, hs⟩⟩
  all_goals exact ⟨_, hs⟩

/-! A history of slot writes, and what it accounts for (R23(c)). -/

/-- The writes of a command are the payloads of the slots it stages. -/
theorem mem_writesOf {c : Config} {i : Instr} {j : Fin 32} {p : Payload} :
    (j, p) ∈ writesOf c i ↔ stagesSlot c i j = some p := by
  simp [writesOf]

/-- Frames after frames are frames of the same history. -/
theorem framesFrom_append {c : Config} {hist : List (Fin 32 × Payload)} {bytes more : List Byte}
    (h : framesFrom c hist bytes) (hmore : framesFrom c hist more) : framesFrom c hist (bytes ++ more) := by
  induction bytes using framesFrom.induct with
  | case1 => exact hmore
  | case2 sid b0 b1 rest ih =>
    simp only [framesFrom, List.cons_append] at h ⊢
    exact ⟨h.1, ih h.2⟩
  | case3 bytes hne hshort => simp [framesFrom] at h

/-- Frames of a history are frames of every longer one. -/
theorem framesFrom_mono {c : Config} {hist hist' : List (Fin 32 × Payload)} (hsub : hist ⊆ hist') {bytes : List Byte}
    (h : framesFrom c hist bytes) : framesFrom c hist' bytes := by
  induction bytes using framesFrom.induct with
  | case1 => trivial
  | case2 sid b0 b1 rest ih =>
    simp only [framesFrom] at h ⊢
    obtain ⟨⟨i, hpos, hsid, hmem⟩, hrest⟩ := h
    exact ⟨⟨i, hpos, hsid, hsub hmem⟩, ih hrest⟩
  | case3 bytes hne hshort => simp [framesFrom] at h

/-- The frame of a payload that the history staged in one of the slots 1 to 31 (R31). -/
theorem framesFrom_frame {c : Config} {hist : List (Fin 32 × Payload)} {i : Fin 32} {p : Payload} (hpos : 0 < i.val)
    (hmem : (i, p) ∈ hist) : framesFrom c hist [slotId c i, p.b0, p.b1] :=
  ⟨⟨i, hpos, rfl, hmem⟩, trivial⟩

section
variable {hist : List (Fin 32 × Payload)} {s : State}

/-- A used slot is not slot 0 (R23(a)). -/
theorem AccountsFor.pos_of_used (h : AccountsFor hist s) {i : Fin 32} (hu : (s.slot i).used = true) : 0 < i.val := by
  refine Nat.pos_of_ne_zero fun h0 => ?_
  obtain rfl : i = 0 := Fin.ext h0
  rw [h.slotZero] at hu
  cases hu

/-- What the host presents is no part of what a history accounts for. -/
theorem AccountsFor.with_port (h : AccountsFor hist s) (es : List PortEvent) :
    AccountsFor hist { s with port := es } :=
  ⟨h.slotZero, h.staged, h.sent⟩

/-- After the reset input the empty history accounts for the state (R190). -/
theorem applyReset_accountsFor (s : State) : AccountsFor [] (applyReset s) where
  slotZero := by rw [applyReset_slot]; rfl
  staged i hu := by rw [applyReset_slot] at hu; cases hu
  sent := trivial

/-- A history with a command's writes accounts for the state after the command: the command adds what it stages to the
history, and what it sends was in a used slot, so in the history before it. -/
theorem AccountsFor.exec {t : State} (h : AccountsFor hist s) {i : Instr} (he : exec i s = .next t) :
    AccountsFor (hist ++ writesOf s.cfg i) t where
  slotZero := by rw [exec_slot_used he, stagesSlot_zero, h.slotZero]; rfl
  staged j hu := by
    rw [exec_slot_used he] at hu
    rw [exec_slot_payload he]
    cases hst : stagesSlot s.cfg i j with
    | some p => exact List.mem_append_right _ (mem_writesOf.mpr hst)
    | none =>
      rw [hst] at hu
      exact List.mem_append_left _ (h.staged j hu)
  sent := by
    rw [exec_cfg he]
    refine framesFrom_mono (List.subset_append_left hist _) ?_
    rcases exec_tx he with htx | ⟨-, n, hu, htx⟩ <;> rw [htx]
    · exact h.sent
    · exact framesFrom_append h.sent (framesFrom_frame (h.pos_of_used hu) (h.staged n hu))

end

/-! The statements about the state. -/

/-- Settles O52: `step_cases` lists what a step can do and `historyAfter` follows it. -/
theorem txHoldsOnlyStagedFrames : Obligations.TxHoldsOnlyStagedFrames := by
  intro hist s t h he
  unfold historyAfter
  rcases step_cases s with ⟨i, rest, hf, hs⟩ | ⟨rest, hf, hs⟩ | ⟨rest, hf, hs⟩ | ⟨hf, hs⟩ <;> rw [hf]
  · exact (h.with_port rest).exec (hs.symm.trans he)
  all_goals obtain rfl := Host.Outcome.next.inj (hs.symm.trans he)
  · exact h.with_port rest
  · exact applyReset_accountsFor _
  · exact h

/-- Settles O17: the `used` bit and the payload after a command, at any slot. -/
theorem usedIsNeverCleared : Obligations.UsedIsNeverCleared := by
  intro i s t j he
  rw [exec_slot_used he, exec_slot_payload he]
  refine ⟨fun hu => by rw [hu, Bool.or_true], fun p hp => ?_⟩
  rw [hp]
  exact ⟨rfl, rfl⟩

/-- Settles O18: each role's fields, and the two fields no command writes. -/
theorem rolesWriteOnlyTheirFields : Obligations.RolesWriteOnlyTheirFields := by
  intro i s t he
  refine ⟨fun hst => ⟨?_, exec_slot_minNext he hst⟩, fun hst j => ?_, exec_port he, exec_cfg he⟩
  · rcases exec_tx he with htx | ⟨hnone, -⟩
    · exact htx
    · exact absurd hnone hst
  · rw [exec_slot_payload he, exec_slot_used he, stagesSlot_of_none hst]
    exact ⟨rfl, rfl⟩

/-- Settles O48: what a command does to `TX`. -/
theorem txGrowsByOneFrame : Obligations.TxGrowsByOneFrame :=
  fun _ _ _ he => exec_tx he

/-- Settles O10: every slot after reset is `resetSlot`. -/
theorem resetStateValues : Obligations.ResetStateValues := by
  refine ⟨fun i => ?_, reset_tx⟩
  rw [reset_slot]
  exact ⟨rfl, rfl, rfl⟩

/-- Settles O49: `step_cases` lists what a step can do; each answers a next state and keeps the parameters. -/
theorem everyStepHasANextState : Obligations.EveryStepHasANextState := by
  refine ⟨exec_total, fun s => ?_⟩
  rcases step_cases s with ⟨i, rest, -, hs⟩ | ⟨rest, -, hs⟩ | ⟨rest, -, hs⟩ | ⟨-, hs⟩
  · obtain ⟨t, he⟩ := exec_total i { s with port := rest }
    exact ⟨t, hs.trans he, by rw [exec_cfg he]⟩
  all_goals exact ⟨_, hs, rfl⟩

/-- Settles O50: the reset state is what the reset input makes of it, and `applyReset` gives both from any state with admitted
parameters. -/
theorem resetMeetsTheInvariants : Obligations.ResetMeetsTheInvariants :=
  ⟨applyReset_inv (s := State.reset) (by decide), applyReset_accountsFor State.reset⟩

/-- Settles O56: entries 0 to 3 are constants, and the default table is checked entry by entry. -/
theorem slotIdTable : Obligations.SlotIdTable :=
  ⟨fun _ => ⟨rfl, rfl, rfl, rfl⟩, by decide⟩

end Sys2Proof.Machine

namespace Sys2Proof.Machine

/-! Several commands in a row, and the store's two operations repeated. -/

/-- Staging the same payload again changes nothing (R37). -/
@[simp] theorem Slot.stage_stage_same (x : Slot) (p : Payload) : (x.stage p).stage p = x.stage p := rfl

/-- Writing the same payload to the same index again changes nothing (R37). -/
@[simp] theorem storeWrite_storeWrite_same (s : State) (idx : Nat) (p : Payload) :
    storeWrite (storeWrite s idx p) idx p = storeWrite s idx p := by
  refine State.ext_slot (fun j => ?_) (storeWrite_tx _ _ _) (storeWrite_port _ _ _) (storeWrite_cfg _ _ _)
  by_cases hj : 0 < idx ∧ idx = j.val
  · simp only [storeWrite_slot, if_pos hj, Slot.stage_stage_same]
  · simp only [storeWrite_slot, if_neg hj]

/-- A slot re-armed at `now` is not taken before `now + MIN_SPACING`, where that does not wrap (R83). -/
theorem storeTake_rearmSlot {s : State} {i : Fin 32} {now now' : Nat} (hwrap : now + minSpacing < 2 ^ s.cfg.timeW)
    (hnow : now' < now + minSpacing) : storeTake (rearmSlot s i now) i now' = none := by
  refine storeTake_of_not (.inr ?_)
  rw [rearmSlot_slot, if_pos rfl, Slot.rearm_minNext, Nat.mod_eq_of_lt hwrap]
  exact hnow

/-- A list of commands that completes is its first command and then the others. -/
theorem exec_of_execAll_cons {i : Instr} {is : List Instr} {s u : State} (h : execAll (i :: is) s = .next u) :
    ∃ t, exec i s = .next t ∧ execAll is t = .next u := by
  obtain ⟨t, ht⟩ := exec_total i s
  rw [execAll, ht] at h
  exact ⟨t, ht, h⟩

/-- No list of commands changes the parameters (R22). -/
theorem execAll_cfg {is : List Instr} {s u : State} (h : execAll is s = .next u) : u.cfg = s.cfg := by
  induction is generalizing s with
  | nil => rw [Host.Outcome.next.inj h]
  | cons i is ih =>
    obtain ⟨t, ht, hrest⟩ := exec_of_execAll_cons h
    rw [ih hrest, exec_cfg ht]

/-- Commands that do not stage a slot keep its payload and its `used` bit. -/
theorem execAll_slot_of_not_staged {is : List Instr} {s u : State} {j : Fin 32} (h : execAll is s = .next u)
    (hns : ∀ c ∈ is, stagesSlot s.cfg c j = none) :
    (u.slot j).payload = (s.slot j).payload ∧ (u.slot j).used = (s.slot j).used := by
  induction is generalizing s with
  | nil => rw [Host.Outcome.next.inj h]; exact ⟨rfl, rfl⟩
  | cons i is ih =>
    obtain ⟨t, ht, hrest⟩ := exec_of_execAll_cons h
    obtain ⟨hi, his⟩ := List.forall_mem_cons.mp hns
    obtain ⟨hp, hu⟩ := ih hrest (by rwa [exec_cfg ht])
    rw [hp, hu, exec_slot_payload ht, exec_slot_used ht, hi]
    exact ⟨rfl, rfl⟩

/-- Settles O14: the second write finds the slot as it would leave it; the second take finds a `minNext` in the future. -/
theorem writesRepeatAndTakesDoNot : Obligations.WritesRepeatAndTakesDoNot := by
  refine ⟨storeWrite_storeWrite_same, fun s t i now f htake hwrap => ?_⟩
  obtain ⟨-, -, -, rfl⟩ := storeTake_eq_some htake
  exact storeTake_rearmSlot hwrap (Nat.lt_add_of_pos_right (by decide))

/-- Settles O20: each command leaves in a slot what it stages there, else what it finds there. -/
theorem laterStagingWins : Obligations.LaterStagingWins := by
  intro i c s t u j hi hc ht hu
  have hcfg : t.cfg = s.cfg := exec_cfg ht
  have hpayload : (u.slot j).payload
      = (stagesSlot s.cfg c j).getD ((stagesSlot s.cfg i j).getD (s.slot j).payload) := by
    rw [exec_slot_payload hu, hcfg, exec_slot_payload ht]
  refine ⟨fun p hp => ?_, fun p hnone hp => ?_, ?_⟩
  · rw [hpayload, hp, Option.getD_some]
  · rw [hpayload, hnone, hp, Option.getD_none, Option.getD_some]
  · rw [exec_slot_minNext hu (by rwa [hcfg]), exec_slot_minNext ht hi]

/-- Settles O53: the staging command leaves the slot used with its payload, the commands between keep both, so the tick passes
every check and sends that payload. -/
theorem stagedPayloadIsSent : Obligations.StagedPayloadIsSent := by
  intro s u i mid j p now elapsed page q hstage hmid hrun hfresh hq hj hdue
  obtain rfl : j = globalIndex page q := Fin.ext hj
  obtain ⟨t, ht, hrest⟩ := exec_of_execAll_cons hrun
  obtain ⟨hpayload, hused⟩ := execAll_slot_of_not_staged hrest (by rwa [exec_cfg ht])
  rw [exec_slot_payload ht, hstage, Option.getD_some] at hpayload
  rw [exec_slot_used ht, hstage, Option.isSome_some, Bool.true_or] at hused
  refine ⟨_, execTick_sends hfresh hq hused hdue, ?_⟩
  rw [sendSlot_tx, hpayload, execAll_cfg hrun]

/-- Settles O2: the port begins with the command's words, so `fetch` finds that command. -/
theorem stepRunsDecodedCommand : Obligations.StepRunsDecodedCommand := by
  intro s ws rest i es hdecode hport
  have hfetch : fetch s.cfg.timeW s.port = .command i (rest.map .word ++ es) := by
    rw [hport, fetch_command hdecode]
  rw [step, hfetch]

end Sys2Proof.Machine

namespace Sys2Proof

/-! Selectors and the fields of a header (R51, R52, R57, R58). -/

/-- The value of `SEL` that names a command (R52). -/
def Selector.code : Selector → Byte
  | .wrslot => 0x01
  | .volt => 0x02
  | .curr => 0x03
  | .tsbs01t => 0x04
  | .t125 => 0x05
  | .rpm => 0x06
  | .gps1675 => 0x07
  | .vario => 0x08
  | .esc8 => 0x09
  | .jetcat => 0x0A
  | .sbs10g => 0x0B
  | .tick => 0x10

/-- The header bits the block looks at: all of them in format W, `SEL` and `PORT` in format C, `SEL` and `AUX[4:0]` in format T
(R58). -/
def Selector.headerMask : Selector → Word
  | .wrslot => BitVec.allOnes 32
  | .tick => 0xFF00001F
  | _ => 0xFFFF0000

/-- The selector map is the table of codes (R52). -/
theorem selectorOf_eq_some_iff {b : Byte} {sel : Selector} : selectorOf b = some sel ↔ b = sel.code := by
  constructor
  · intro h
    unfold selectorOf at h
    split at h
    case h_13 => cases h
    all_goals
      obtain rfl := Option.some.inj h
      exact BitVec.eq_of_toNat_eq ‹_›
  · rintro rfl
    cases sel <;> rfl

/-- The reserved selectors (R57). -/
theorem selectorOf_eq_none_iff (b : Byte) :
    selectorOf b = none ↔ b.toNat = 0 ∨ (0x0C ≤ b.toNat ∧ b.toNat ≤ 0x0F) ∨ 0x11 ≤ b.toNat := by
  unfold selectorOf
  split
  case h_13 => simp only [imp_false] at *; simp only [true_iff]; omega
  all_goals simp only [reduceCtorEq, false_iff]; omega

/-- A field of `AUX` read off the header (R51). -/
theorem header_extractLsb'_low (sel port : Byte) (aux : BitVec 16) {k n : Nat} (h : k + n ≤ 16) :
    (header sel port aux).extractLsb' k n = aux.extractLsb' k n := by
  refine BitVec.eq_of_getLsbD_eq fun i hi => ?_
  simp only [BitVec.getLsbD_extractLsb', header_getLsbD_low sel port aux (show k + i < 16 by omega)]

@[simp] theorem pageField_header (sel port : Byte) (aux : BitVec 16) :
    pageField (header sel port aux) = aux.extractLsb' 0 2 :=
  header_extractLsb'_low sel port aux (by decide)

/-- Masking a header masks each of its fields. -/
theorem header_and_header (sel sel' port port' : Byte) (aux aux' : BitVec 16) :
    header sel port aux &&& header sel' port' aux' = header (sel &&& sel') (port &&& port') (aux &&& aux') :=
  BitVec.and_append.trans (congrArg (· ++ (aux &&& aux')) BitVec.and_append)

/-- The fields of format T, whatever the ignored bits of `AUX` hold (R51, R58). -/
theorem formatT_fields {h : Word} {sel port : Byte} {ignored : BitVec 11} {page : BitVec 2} {live rx sbus2 : Bool}
    (hh : h = header sel port (ignored ++ BitVec.ofBool sbus2 ++ BitVec.ofBool rx ++ BitVec.ofBool live ++ page)) :
    pageField h = page ∧ h.getLsbD 2 = live ∧ h.getLsbD 3 = rx ∧ h.getLsbD 4 = sbus2 := by
  subst hh
  refine ⟨BitVec.eq_of_getLsbD_eq fun i hi => ?_, ?_, ?_, ?_⟩
  · rw [pageField_header]
    simp only [BitVec.getLsbD_extractLsb', BitVec.getLsbD_append]
    simp [hi]
  all_goals
    simp only [header, BitVec.getLsbD_append]
    simp

/-- Format W's header holds its two payload bytes and nothing else (R55). -/
theorem header_formatW {h : Word} {sel : Byte} (hsel : selField h = sel) :
    header sel (portField h) (auxHigh h ++ auxLow h) = h := by
  have haux : auxHigh h ++ auxLow h = h.extractLsb' 0 16 := BitVec.extractLsb'_append_extractLsb'_eq_extractLsb' rfl
  rw [← hsel, haux, header_eta]

/-- Format C's header with `AUX` cleared (R58). -/
theorem header_formatC {h : Word} {sel : Byte} (hsel : selField h = sel) :
    header sel (portField h) 0#16 = h &&& 0xFFFF0000 :=
  calc header sel (portField h) 0#16
    _ = header (selField h &&& BitVec.allOnes 8) (portField h &&& BitVec.allOnes 8) (h.extractLsb' 0 16 &&& 0#16) := by
      rw [BitVec.and_allOnes, BitVec.and_allOnes, BitVec.and_zero, hsel]
    _ = h &&& 0xFFFF0000 := by rw [← header_and_header, header_eta]; rfl

/-- `AUX` of format T with its ignored bits cleared (R58). -/
theorem tickAux_eq_and (h : Word) :
    tickAux (pageField h) (h.getLsbD 2) (h.getLsbD 3) (h.getLsbD 4) = h.extractLsb' 0 16 &&& 0x001F#16 := by
  refine BitVec.eq_of_getLsbD_eq fun i hi => ?_
  simp only [tickAux, pageField, BitVec.getLsbD_append, BitVec.getLsbD_extractLsb', BitVec.getLsbD_and]
  interval_cases i <;> simp

/-- Format T's header with `PORT` and `AUX[15:5]` cleared (R58). -/
theorem header_formatT {h : Word} {sel : Byte} (hsel : selField h = sel) :
    header sel 0#8 (tickAux (pageField h) (h.getLsbD 2) (h.getLsbD 3) (h.getLsbD 4)) = h &&& 0xFF00001F :=
  calc header sel 0#8 (tickAux (pageField h) (h.getLsbD 2) (h.getLsbD 3) (h.getLsbD 4))
    _ = header (selField h &&& BitVec.allOnes 8) (portField h &&& 0#8) (h.extractLsb' 0 16 &&& 0x001F#16) := by
      rw [BitVec.and_allOnes, BitVec.and_zero, tickAux_eq_and, hsel]
    _ = h &&& 0xFF00001F := by rw [← header_and_header, header_eta]; rfl

/-! The operand words of a time (R51, R56). -/

/-- At `TIME_W` 32 a time is its one word. -/
@[simp] theorem takeTime_32_cons (w : Word) (ws : List Word) : takeTime 32 (w :: ws) = some (w.toNat, ws) := by
  have hw : w.toNat + 2 ^ 32 * 0 = w.toNat := by omega
  simp only [takeTime, timeWords, Nat.reduceAdd, Nat.reduceDiv, takeWords, joinWords, hw, Nat.mod_eq_of_lt w.isLt]

@[simp] theorem takeTime_32_nil : takeTime 32 [] = none := rfl

/-- A time of 33 to 64 bits takes two words, the least significant first. -/
theorem takeTime_two_words {timeW : Nat} (hlo : 33 ≤ timeW) (hhi : timeW ≤ 64) (lo : Word) {hi : Word}
    (hfit : hi.toNat < 2 ^ (timeW - 32)) (ws : List Word) :
    takeTime timeW (lo :: hi :: ws) = some (lo.toNat + 2 ^ 32 * hi.toNat, ws) := by
  have hwords : timeWords timeW = 2 := by unfold timeWords; omega
  have hpow : (2 : Nat) ^ timeW = 2 ^ 32 * 2 ^ (timeW - 32) := by rw [← Nat.pow_add]; congr 1; omega
  have hlt : lo.toNat + 2 ^ 32 * hi.toNat < 2 ^ timeW := by
    have := lo.isLt
    rw [hpow]
    omega
  simp only [takeTime, hwords, takeWords, joinWords, Nat.mul_zero, Nat.add_zero, Nat.mod_eq_of_lt hlt]

/-- The one word of a word's number at `TIME_W` 32 is that word. -/
theorem splitWords_toNat (w : Word) : splitWords (timeWords 32) w.toNat = [w] := by
  simp [timeWords, splitWords]

/-! What the decoder answers for a header and the words after it (R50, R52). -/

/-- A header that names a command, with that command's operands after it, decodes to it. -/
theorem decode_of_operands {timeW : Nat} {h : Word} {ops : List Word} {sel : Selector} {r : Instr × List Word}
    (hsel : selectorOf (selField h) = some sel) (hops : decodeOperands timeW sel h ops = some r) :
    decode timeW (h :: ops) = .ok r := by
  simp only [decode, hsel, hops]

/-- Whatever decodes has a header that names a command, and that command's operands. -/
theorem operands_of_decode {timeW : Nat} {h : Word} {ops : List Word} {r : Instr × List Word}
    (hd : decode timeW (h :: ops) = .ok r) :
    ∃ sel : Selector, selField h = sel.code ∧ decodeOperands timeW sel h ops = some r := by
  unfold decode at hd
  cases hsel : selectorOf (selField h) with
  | none => simp [hsel] at hd
  | some sel =>
    cases hops : decodeOperands timeW sel h ops with
    | none => simp [hsel, hops] at hd
    | some r' =>
      simp only [hsel, hops, Except.ok.injEq] at hd
      exact ⟨sel, selectorOf_eq_some_iff.mp hsel, by rw [hops, hd]⟩

/-- Two headers with the same `SEL` decode alike if the command it names takes the same from both. -/
theorem decode_congr_header {timeW : Nat} {h h' : Word} {ops : List Word} (hsel : selField h = selField h')
    (hops : ∀ sel : Selector, selField h = sel.code → decodeOperands timeW sel h ops = decodeOperands timeW sel h' ops) :
    decode timeW (h :: ops) = decode timeW (h' :: ops) := by
  simp only [decode, ← hsel]
  cases hs : selectorOf (selField h) with
  | none => rfl
  | some sel => simp only [hops sel (selectorOf_eq_some_iff.mp hs)]

/-- Format C looks at no field of the header but `SEL` and `PORT` (R58). -/
theorem decodeOperands_congr_port {timeW : Nat} {sel : Selector} {h h' : Word} (hW : sel ≠ .wrslot) (hT : sel ≠ .tick)
    (hport : portField h = portField h') (ops : List Word) :
    decodeOperands timeW sel h ops = decodeOperands timeW sel h' ops := by
  cases sel with
  | wrslot => exact absurd rfl hW
  | tick => exact absurd rfl hT
  | _ => simp only [decodeOperands, hport]

/-- Format T looks at no bit of the header but `SEL` and `AUX[4:0]` (R58). -/
theorem decodeOperands_tick_congr {timeW : Nat} {h h' : Word} (hlow : h.extractLsb' 0 5 = h'.extractLsb' 0 5)
    (ops : List Word) : decodeOperands timeW .tick h ops = decodeOperands timeW .tick h' ops := by
  have hbit : ∀ k < 5, h.getLsbD k = h'.getLsbD k := fun k hk => by
    simpa [BitVec.getLsbD_extractLsb', hk] using congrArg (·.getLsbD k) hlow
  have hpage : pageField h = pageField h' := by
    refine BitVec.eq_of_getLsbD_eq fun i hi => ?_
    simp only [pageField, BitVec.getLsbD_extractLsb', Nat.zero_add, hbit i (by omega)]
  simp only [decodeOperands, hpage, hbit 2 (by decide), hbit 3 (by decide), hbit 4 (by decide)]

/-- `TICK` takes its two times from the words after the header, and the rest from the header (R51, R56). -/
theorem decodeOperands_tick {timeW now elapsed : Nat} {ops ops' rest : List Word} (h : Word)
    (hnow : takeTime timeW ops = some (now, ops')) (helapsed : takeTime timeW ops' = some (elapsed, rest)) :
    decodeOperands timeW .tick h ops
      = some (.tick now elapsed (pageField h) (h.getLsbD 2) (h.getLsbD 3) (h.getLsbD 4), rest) := by
  simp only [decodeOperands, hnow, helapsed]

/-- A header with `SEL` 0x10 decodes to `TICK`, whatever the ignored bits hold, if two times come after it (R51, R56, R58). -/
theorem decode_tick {timeW now elapsed : Nat} {ops ops' rest : List Word} (port : Byte) (ignored : BitVec 11)
    (page : BitVec 2) (live rx sbus2 : Bool) (hnow : takeTime timeW ops = some (now, ops'))
    (helapsed : takeTime timeW ops' = some (elapsed, rest)) :
    decode timeW (header 0x10 port
        (ignored ++ BitVec.ofBool sbus2 ++ BitVec.ofBool rx ++ BitVec.ofBool live ++ page) :: ops)
      = .ok (.tick now elapsed page live rx sbus2, rest) := by
  obtain ⟨hpage, hlive, hrx, hsbus2⟩ := formatT_fields
    (rfl : header 0x10 port (ignored ++ BitVec.ofBool sbus2 ++ BitVec.ofBool rx ++ BitVec.ofBool live ++ page) = _)
  rw [decode_of_operands (congrArg selectorOf (selField_header _ _ _)) (decodeOperands_tick _ hnow helapsed),
    hpage, hlive, hrx, hsbus2]

/-- At `TIME_W` 32 `TICK` takes two operand words, and only then decodes. -/
theorem decodeOperands_32_tick_eq_some {h : Word} {ops rest : List Word} {i : Instr}
    (hd : decodeOperands 32 .tick h ops = some (i, rest)) :
    ∃ now elapsed : Word, ops = now :: elapsed :: rest
      ∧ i = .tick now.toNat elapsed.toNat (pageField h) (h.getLsbD 2) (h.getLsbD 3) (h.getLsbD 4) := by
  match ops with
  | [] => simp [decodeOperands] at hd
  | [now] => simp [decodeOperands] at hd
  | now :: elapsed :: rest' =>
    rw [decodeOperands_tick h (takeTime_32_cons _ _) (takeTime_32_cons _ _)] at hd
    obtain ⟨rfl, rfl⟩ := Prod.mk.inj (Option.some.inj hd)
    exact ⟨now, elapsed, rfl, rfl⟩

/-- At `TIME_W` 32 the operands of a command are as many words as its selector says, and the command's own words are those after
its header with the ignored bits cleared (R50, R51, R58). -/
theorem decodeOperands_32_eq_some {sel : Selector} {h : Word} {ops rest : List Word} {i : Instr}
    (hsel : selField h = sel.code) (hd : decodeOperands 32 sel h ops = some (i, rest)) :
    i.wf 32 = true ∧ ∃ operands, ops = operands ++ rest ∧ operands.length = operandWords 32 sel
      ∧ encode 32 i = (h &&& sel.headerMask) :: operands := by
  cases sel with
  | wrslot =>
    obtain ⟨rfl, rfl⟩ := Prod.mk.inj (Option.some.inj hd)
    exact ⟨rfl, [], rfl, rfl, congrArg₂ List.cons ((header_formatW hsel).trans BitVec.and_allOnes.symm) rfl⟩
  | tick =>
    obtain ⟨now, elapsed, rfl, rfl⟩ := decodeOperands_32_tick_eq_some hd
    refine ⟨?_, [now, elapsed], rfl, rfl, ?_⟩
    · simp only [Instr.wf, now.isLt, elapsed.isLt, decide_true, Bool.and_true]
    · rw [encode, splitWords_toNat, splitWords_toNat]
      exact congrArg₂ List.cons (header_formatT hsel) rfl
  | _ =>
    simp only [decodeOperands] at hd
    split at hd
    · obtain ⟨rfl, rfl⟩ := Prod.mk.inj (Option.some.inj hd)
      refine ⟨rfl, _, ?_, ?_, congrArg₂ List.cons (header_formatC hsel) rfl⟩ <;> rfl
    · cases hd

/-! The statements about the encoding. -/

/-- Settles O3: the header of each command reads back field by field, and so do the times of `TICK`. -/
theorem decodeOfEncode : Obligations.DecodeOfEncode := by
  intro timeW i rest hwf
  cases i with
  | wrslot port b0 b1 =>
    refine decode_of_operands (congrArg selectorOf (selField_header _ _ _)) ?_
    simp only [decodeOperands, portField_header, auxHigh_header, auxLow_header]
    rfl
  | tick now elapsed page live rx sbus2 =>
    simp only [Instr.wf, Bool.and_eq_true, decide_eq_true_eq] at hwf
    obtain ⟨hnow, helapsed⟩ := hwf
    rw [encode, List.cons_append, List.append_assoc]
    exact decode_tick 0 0 page live rx sbus2 (takeTime_splitWords hnow _) (takeTime_splitWords helapsed _)
  | _ =>
    refine decode_of_operands (congrArg selectorOf (selField_header _ _ _)) ?_
    simp only [decodeOperands, portField_header]
    rfl

/-- Settles O4: `decodeOperands_32_eq_some`, the mask of each selector being the one R58 gives its format. -/
theorem encodeOfDecode : Obligations.EncodeOfDecode := by
  intro h ops rest i hd
  obtain ⟨sel, hsel, hops⟩ := operands_of_decode hd
  obtain ⟨hwf, operands, rfl, -, henc⟩ := decodeOperands_32_eq_some hsel hops
  refine ⟨hwf, operands, rfl, ?_⟩
  rw [henc, hsel]
  cases sel with
  | wrslot => exact congrArg (· :: operands) BitVec.and_allOnes
  | _ => rfl

/-- Settles O5: `selectorOf_eq_none_iff`, and what the port and the step do with such a header. -/
theorem reservedSelectorDoesNothing : Obligations.ReservedSelectorDoesNothing := by
  refine ⟨selectorOf_eq_none_iff, fun s h es hport hres => ?_⟩
  have hfetch : Machine.fetch s.cfg.timeW s.port = .reserved es := by
    rw [hport, Machine.fetch_reserved ((selectorOf_eq_none_iff _).mpr hres)]
  rw [Machine.step, hfetch]
  rfl

/-- Settles O6: what each format's operands are taken from, and the headers the encoder writes. -/
theorem ignoredHeaderBits : Obligations.IgnoredHeaderBits := by
  refine ⟨fun timeW h h' ops hsel hlo hhi hport => ?_, fun timeW h h' ops hsel htick hlow => ?_, ?_⟩
  · refine decode_congr_header hsel fun sel hcode => ?_
    rw [hcode] at hlo hhi
    refine decodeOperands_congr_port ?_ ?_ hport ops
    · rintro rfl; exact absurd hlo (by decide)
    · rintro rfl; exact absurd hhi (by decide)
  · refine decode_congr_header hsel fun sel hcode => ?_
    obtain rfl : sel = .tick :=
      Option.some.inj ((selectorOf_eq_some_iff.mpr hcode).symm.trans (congrArg selectorOf htick))
    exact decodeOperands_tick_congr hlow ops
  · intro timeW i h ops henc
    cases i with
    | wrslot port b0 b1 =>
      obtain ⟨rfl, -⟩ := List.cons.inj henc
      rw [selField_header]
      exact ⟨fun hW => absurd rfl hW, fun hT => absurd hT (by decide)⟩
    | tick now elapsed page live rx sbus2 =>
      obtain ⟨rfl, -⟩ := List.cons.inj henc
      obtain ⟨-, -, -, -, hunused⟩ := tickAux_fields page live rx sbus2
      rw [selField_header, portField_header]
      exact ⟨fun _ hT => absurd rfl hT, fun _ => ⟨rfl, (header_extractLsb'_low _ _ _ (by decide)).trans hunused⟩⟩
    | _ =>
      obtain ⟨rfl, -⟩ := List.cons.inj henc
      rw [selField_header]
      exact ⟨fun _ _ => aux_header _ _ _, fun hT => absurd hT (by decide)⟩

/-- Settles O7: the operands of a decoded command are as many words as its selector says. -/
theorem commandLengths : Obligations.CommandLengths := by
  intro h ops rest i hd
  obtain ⟨sel, hsel, hops⟩ := operands_of_decode hd
  obtain ⟨-, operands, rfl, hlen, -⟩ := decodeOperands_32_eq_some hsel hops
  refine ⟨1 + operandWords 32 sel, ?_, ?_⟩
  · rw [hsel]
    cases sel <;> decide
  · rw [List.length_append, hlen, Nat.add_assoc]

/-- Settles O59: at `TIME_W` 32 each time is its one word, and from 33 to 64 its two words. -/
theorem tickWordsDecode : Obligations.TickWordsDecode := by
  intro port ignored page live rx sbus2 rest
  refine ⟨fun now elapsed => ?_, fun timeW nowLo nowHi elapsedLo elapsedHi hlo hhi hnow helapsed => ?_⟩
  · exact decode_tick port ignored page live rx sbus2 (takeTime_32_cons _ _) (takeTime_32_cons _ _)
  · exact decode_tick port ignored page live rx sbus2 (takeTime_two_words hlo hhi _ hnow _)
      (takeTime_two_words hlo hhi _ helapsed _)

/-- Settles O1: seven fixed lists of words, each decoded. -/
theorem sampleWordsDecode : Obligations.SampleWordsDecode := by
  refine ⟨?_, ?_, ?_, ?_, ?_, ?_, ?_⟩ <;> decide

end Sys2Proof

namespace Sys2Proof.Machine

/-! A staging command reads no state, and the host's side of the port. -/

/-- Settles O19: both next states are the same list of writes, which reaches a slot of both or of neither. -/
theorem codecsReadNoState : Obligations.CodecsReadNoState := by
  intro i s s' hst hcfg
  obtain ⟨⟨idx, ps⟩, hstaged⟩ := Option.ne_none_iff_exists'.mp hst
  refine ⟨_, _, exec_of_stagedBy hstaged, exec_of_stagedBy (s := s') (hcfg ▸ hstaged), fun j => ?_⟩
  rw [storeSeq_slot, storeSeq_slot]
  cases writtenAt idx ps j with
  | some p => exact .inl ⟨rfl, rfl, rfl⟩
  | none => exact .inr ⟨rfl, rfl⟩

/-- Settles O57: the aliases expand to their commands' words, and the header of `NOP` is reserved. -/
theorem aliasesPresentTheSameWords : Obligations.AliasesPresentTheSameWords :=
  ⟨fun _ _ _ _ _ _ _ _ _ _ => ⟨rfl, rfl⟩, fun _ => rfl,
    fun s es hport => reservedSelectorDoesNothing.2 s 0x00000000 es hport (.inl rfl)⟩

/-- Settles O58: each form hands the host's rounding the same rational number for each operand. -/
theorem gpsInputFormsAgree : Obligations.GpsInputFormsAgree := by
  intro Q port speed alt vario latD latMin lonD lonMin hlatD hlatMin hlonD hlonMin
  have hminuteE4 : ∀ d m : Rat, d * 10 ^ 6 + m * 10000 * 100 / 60 = (d + m / 60) * 10 ^ 6 := fun d m => by ring
  have hE7 : ∀ x : Rat, x * 10 ^ 7 / 10 = x * 10 ^ 6 := fun x => by ring
  refine ⟨?_, ?_, ?_⟩
  · simp only [expandPseudo]
    rw [if_pos ⟨hlatD, hlatMin, hlonD, hlonMin⟩]
  · simp only [expandPseudo, hminuteE4]
    rw [if_pos ⟨hlatD, by positivity, hlonD, by positivity⟩]
  · simp only [expandPseudo, hE7]

end Sys2Proof.Machine

namespace Sys2Proof.Machine

/-! When `resolveSlot` answers a slot, and so when a tick can send (R70 to R77, R200). -/

section
variable {elapsed : Nat} {q : Fin 8}

/-- The window of slot `q` in microseconds (R77). -/
theorem inWindow_iff : inWindow elapsed q ↔ 2000 + 650 * q.val ≤ elapsed ∧ elapsed ≤ 2000 + 650 * q.val + 325 := Iff.rfl

/-- The checks of R70, said once: the 8-bit slot number is `q`, and the offset in that slot is from 0 to `SLOT_DELAY_MAX`. -/
theorem resolveSlot_eq_some_iff :
    resolveSlot elapsed = some q ↔ slot8 ((elapsed - 2000) % 650) = q.val ∧ inWindow elapsed q := by
  have hq := q.isLt
  have hmax : slotDelayMax = 325 := rfl
  rw [inWindow_iff]
  simp only [resolveSlot, deadTime, slotTime, hmax]
  generalize slot8 ((elapsed - 2000) % 650) = slot
  have hanswer (h : slot < 8) : some (⟨slot, h⟩ : Fin 8) = some q ↔ slot = q.val := by
    rw [Option.some.injEq, Fin.ext_iff]
  split_ifs <;> simp only [hanswer, false_iff] <;> omega

/-- In the window of slot `q` the remainder by `SLOT_TIME` is the offset (R75). -/
theorem mod_slotTime_of_inWindow (h : inWindow elapsed q) : (elapsed - 2000) % 650 = elapsed - (2000 + 650 * q.val) := by
  obtain ⟨hlo, hhi⟩ := inWindow_iff.mp h
  omega

/-- The 8-bit slot number is `q` at the offsets `q + 1` and `q + 257` of the window only: the next one is past the lateness
limit (R75). -/
theorem resolveSlot_eq_some_iff_instants :
    resolveSlot elapsed = some q ↔ elapsed = 2000 + 651 * q.val + 1 ∨ elapsed = 2000 + 651 * q.val + 257 := by
  have hq := q.isLt
  rw [resolveSlot_eq_some_iff]
  constructor
  · rintro ⟨hslot, hwin⟩
    obtain ⟨hlo, hhi⟩ := inWindow_iff.mp hwin
    rw [mod_slotTime_of_inWindow hwin, slot8] at hslot
    omega
  · intro h
    have hwin : inWindow elapsed q := inWindow_iff.mpr (by omega)
    refine ⟨?_, hwin⟩
    rw [mod_slotTime_of_inWindow hwin, slot8]
    omega

end

/-- The instants of R75 for each of the eight slots, written out. -/
theorem instants_mem_sixteen : ∀ q : Fin 8, ∀ elapsed ∈ [2000 + 651 * q.val + 1, 2000 + 651 * q.val + 257],
    elapsed ∈ [2001, 2257, 2652, 2908, 3303, 3559, 3954, 4210, 4605, 4861, 5256, 5512, 5907, 6163, 6558, 6814] := by
  decide

/-- Settles O42: division by `SLOT_TIME` turns the two instants into a quotient and a remainder. -/
theorem resolveSlotClosedForm : Obligations.ResolveSlotClosedForm := by
  intro elapsed q
  have hq := q.isLt
  rw [resolveSlot_eq_some_iff_instants]
  refine ⟨?_, Iff.rfl, ?_⟩ <;> omega

/-- Settles O43: an answered slot is the 8-bit slot number and has the elapsed time in its window. -/
theorem resolveSlotKeepsTheWindow : Obligations.ResolveSlotKeepsTheWindow := by
  intro elapsed
  refine ⟨fun hdead => if_pos hdead, fun hge hlate => ?_, fun q hq => (resolveSlot_eq_some_iff.mp hq).2⟩
  refine Option.eq_none_iff_forall_ne_some.mpr fun q hq => ?_
  obtain ⟨hslot, hwin⟩ := resolveSlot_eq_some_iff.mp hq
  obtain ⟨-, hhi⟩ := inWindow_iff.mp hwin
  rw [← slot8, hslot] at hlate
  omega

/-- Settles O47: a tick that does not leave the state as it was has a slot resolved. -/
theorem tickSendsOnlyAtSixteenInstants : Obligations.TickSendsOnlyAtSixteenInstants := by
  intro s t now elapsed page live rx sbus2 he hne
  rcases execTick_cases now elapsed page live rx sbus2 s with hs | ⟨q, -, -, -, -, hq, -⟩
  · exact absurd (Host.Outcome.next.inj (he.symm.trans hs)) hne
  · refine instants_mem_sixteen q elapsed ?_
    simpa using resolveSlot_eq_some_iff_instants.mp hq

end Sys2Proof.Machine

namespace Sys2Proof.Machine

/-! One write and one take of the store, read back at the slot they name (R80, R82). -/

section
variable {s : State} {idx now : Nat} {i : Fin 32} (p : Payload)

/-- A write outside 1 to 31 is dropped (R80). -/
theorem storeWrite_of_dropped (h : idx = 0 ∨ 32 ≤ idx) : storeWrite s idx p = s :=
  dif_neg (by omega)

/-- A write is read back at its own slot (R80). -/
theorem storeWrite_slot_same (hpos : 0 < i.val) : (storeWrite s i.val p).slot i = (s.slot i).stage p := by
  rw [storeWrite_slot, if_pos ⟨hpos, rfl⟩]

/-- A write to one slot keeps every other (R80). -/
theorem storeWrite_slot_other {j : Fin 32} (hne : j ≠ i) : (storeWrite s i.val p).slot j = s.slot j := by
  rw [storeWrite_slot, if_neg]
  rintro ⟨-, hval⟩
  exact hne (Fin.ext hval.symm)

/-- The frame of a slot just written holds the payload written (R31, R80). -/
theorem frameOf_storeWrite_same (hpos : 0 < i.val) :
    frameOf (storeWrite s i.val p) i = { slotId := slotId s.cfg i, b0 := p.b0, b1 := p.b1 } := by
  simp only [frameOf, storeWrite_cfg, storeWrite_slot_same p hpos, Slot.stage_payload]

/-- Re-arming a slot writes its `minNext` and no other field (R82, R83). -/
@[simp] theorem rearmSlot_slot_same :
    (rearmSlot s i now).slot i = (s.slot i).rearm ((now + minSpacing) % 2 ^ s.cfg.timeW) := by
  rw [rearmSlot_slot, if_pos rfl]

/-- Re-arming one slot keeps every other (R82). -/
theorem rearmSlot_slot_other {j : Fin 32} (hne : j ≠ i) : (rearmSlot s i now).slot j = s.slot j := by
  rw [rearmSlot_slot, if_neg hne]

/-- A re-armed slot has the frame it had (R82). -/
@[simp] theorem frameOf_rearmSlot : frameOf (rearmSlot s i now) i = frameOf s i := by
  simp only [frameOf, rearmSlot_cfg, rearmSlot_slot_same, Slot.rearm_payload]

/-- A slot re-armed at `now` answers the same frame at every time from its new `minNext` on (R82, R85). -/
theorem storeTake_rearmSlot_again {now' : Nat} (hu : (s.slot i).used = true)
    (hdue : (now + minSpacing) % 2 ^ s.cfg.timeW ≤ now') :
    ∃ u, storeTake (rearmSlot s i now) i now' = some (frameOf s i, u) := by
  refine ⟨_, (storeTake_of_eligible ?_ ?_).trans (by rw [frameOf_rearmSlot])⟩
  · rwa [rearmSlot_slot_same, Slot.rearm_used]
  · rwa [rearmSlot_slot_same, Slot.rearm_minNext]

end

/-- A time base of at least 18 bits is longer than the spacing (R5, R83). -/
theorem minSpacing_lt_two_pow {timeW : Nat} (hwidth : 18 ≤ timeW) : minSpacing < 2 ^ timeW :=
  calc minSpacing
    _ < 2 ^ 18 := by decide
    _ ≤ 2 ^ timeW := Nat.pow_le_pow_right (by decide) hwidth

/-- In the last `MIN_SPACING` microseconds of the time base the new `minNext` wraps once (R83, R197). -/
theorem add_minSpacing_mod_of_wrap {timeW now : Nat} (hwidth : 18 ≤ timeW) (hnow : now < 2 ^ timeW)
    (hwrap : 2 ^ timeW ≤ now + minSpacing) : (now + minSpacing) % 2 ^ timeW = now + minSpacing - 2 ^ timeW := by
  have hlong := minSpacing_lt_two_pow hwidth
  rw [Nat.mod_eq_sub_mod hwrap, Nat.mod_eq_of_lt (by omega)]

/-- Settles O12: a dropped write, and a write read back at its own slot and at any other. -/
theorem storeWriteIsBoundsChecked : Obligations.StoreWriteIsBoundsChecked :=
  fun _ p => ⟨fun _ => storeWrite_of_dropped p, fun _ hpos =>
    ⟨storeWrite_slot_same p hpos, fun _ => storeWrite_slot_other p,
      storeWrite_tx _ _ _, storeWrite_port _ _ _, storeWrite_cfg _ _ _⟩⟩

/-- Settles O13: the take of an eligible slot re-arms it and no other; of any other slot it fails. -/
theorem storeTakeAnswersAndRearms : Obligations.StoreTakeAnswersAndRearms := by
  refine fun s i now => ⟨fun ⟨hu, hdue⟩ => ?_, fun hnot => storeTake_of_not ?_⟩
  · exact ⟨rearmSlot s i now, storeTake_of_eligible hu hdue, rearmSlot_slot_same,
      fun _ => rearmSlot_slot_other, rearmSlot_tx s i now, rearmSlot_port s i now, rearmSlot_cfg s i now⟩
  · rcases Bool.eq_false_or_eq_true (s.slot i).used with hu | hu
    · exact .inr (Nat.lt_of_not_le fun hdue => hnot ⟨hu, hdue⟩)
    · exact .inl hu

/-- Settles O15: the write leaves the slot used and due at 0, and the take re-arms it for `t + 1000`. -/
theorem takeReturnsOncePerSpacing : Obligations.TakeReturnsOncePerSpacing := by
  intro s i p t hpos hmin hwrap
  have hslot := storeWrite_slot_same (s := s) p hpos
  have hused : ((storeWrite s i.val p).slot i).used = true := by rw [hslot, Slot.stage_used]
  have hdue : ((storeWrite s i.val p).slot i).minNext ≤ t := by
    rw [hslot, Slot.stage_minNext, hmin]
    exact Nat.zero_le t
  rw [← storeWrite_cfg s i.val p] at hwrap
  rw [← frameOf_storeWrite_same p hpos]
  exact ⟨_, storeTake_of_eligible hused hdue, fun _ _ hearly => storeTake_rearmSlot hwrap hearly,
    storeTake_rearmSlot_again hused (Nat.mod_le _ _)⟩

/-- Settles O55: the wrapped `minNext` is below `now`, so the slot is due again at once. -/
theorem wrapBreaksSpacingOnce : Obligations.WrapBreaksSpacingOnce := by
  intro s t i now f hwidth hnow hwrap htake
  obtain ⟨hused, -, rfl, rfl⟩ := storeTake_eq_some htake
  have hmod := add_minSpacing_mod_of_wrap hwidth hnow hwrap
  have hlong := minSpacing_lt_two_pow hwidth
  refine ⟨by rw [rearmSlot_slot_same, Slot.rearm_minNext, hmod], storeTake_rearmSlot_again hused ?_⟩
  rw [hmod]
  omega

/-! Which slots a command can touch (R80, R86, R88). -/

/-- A codec's writes stage their list and nothing else (R35, R88). -/
theorem storeSeq_stagesFrom (s : State) (idx : Nat) (ps : List Payload) : StagesFrom s (storeSeq s idx ps) idx ps :=
  ⟨fun j => (storeSeq_slot s idx ps j).trans (by cases writtenAt idx ps j <;> rfl),
    storeSeq_tx s idx ps, storeSeq_port s idx ps, storeSeq_cfg s idx ps⟩

/-- Sending one slot keeps every other (R82). -/
theorem sendSlot_slot_other {s : State} {i j : Fin 32} (now : Nat) (hne : j ≠ i) :
    (sendSlot s i now).slot j = s.slot j := by
  rw [sendSlot_slot, if_neg hne]

/-- Settles O16: no list of writes reaches slot 0, and a slot that is sent is used. -/
theorem slotZeroIsNeverWritten : Obligations.SlotZeroIsNeverWritten := by
  intro i s t hunused he
  have hkept : t.slot 0 = s.slot 0 := by
    rcases eq_of_exec he with ⟨idx, ps, -, rfl⟩ | ⟨-, rfl | ⟨n, now, hu, rfl⟩⟩
    · rw [storeSeq_slot, writtenAt_zero]
    · rfl
    · refine sendSlot_slot_other now ?_
      rintro rfl
      rw [hunused] at hu
      cases hu
  exact ⟨hkept, by rw [hkept, hunused]⟩

/-- Settles O21: the header is that of the command's own encoding, and its one write is dropped outside 1 to 31. -/
theorem wrslotStagesTheRawPayload : Obligations.WrslotStagesTheRawPayload :=
  fun port b0 b1 rest s => ⟨decodeOfEncode s.cfg.timeW (.wrslot port b0 b1) rest rfl,
    _, exec_of_stagedBy rfl, storeSeq_stagesFrom s port.toNat _, storeWrite_of_dropped _⟩

/-! The spacing of a slot across commands (R87, R196). -/

/-- A tick that comes before the `minNext` of the slot at its index does nothing (R154). -/
theorem execTick_of_too_soon {now elapsed : Nat} {page : BitVec 2} {live rx sbus2 : Bool} {s : State} {q : Fin 8}
    (hq : resolveSlot elapsed = some q) (hsoon : now < (s.slot (globalIndex page q)).minNext) :
    execTick now elapsed page live rx sbus2 s = .next s := by
  rcases execTick_cases now elapsed page live rx sbus2 s with h | ⟨q', -, -, -, -, hq', -, hdue, -⟩
  · exact h
  · obtain rfl := Option.some.inj (hq.symm.trans hq')
    omega

/-- A tick that changes the state sends the slot at its index (R150). -/
theorem eq_sendSlot_of_execTick_ne {now elapsed : Nat} {page : BitVec 2} {live rx sbus2 : Bool} {s t : State}
    {q : Fin 8} (he : execTick now elapsed page live rx sbus2 s = .next t) (hne : t ≠ s)
    (hq : resolveSlot elapsed = some q) : t = sendSlot s (globalIndex page q) now := by
  rcases execTick_cases now elapsed page live rx sbus2 s with h | ⟨q', -, -, -, -, hq', -, -, h⟩
  · exact absurd (Host.Outcome.next.inj (he.symm.trans h)) hne
  · obtain rfl := Option.some.inj (hq.symm.trans hq')
    exact Host.Outcome.next.inj (he.symm.trans h)

/-- Every tick of a list of commands comes before `bound`. -/
def TicksBefore (bound : Nat) (is : List Instr) : Prop :=
  ∀ now elapsed page live rx sbus2, Instr.tick now elapsed page live rx sbus2 ∈ is → now < bound

theorem TicksBefore.of_cons {bound : Nat} {i : Instr} {is : List Instr} (h : TicksBefore bound (i :: is)) :
    TicksBefore bound [i] ∧ TicksBefore bound is :=
  ⟨fun _ _ _ _ _ _ hmem => h _ _ _ _ _ _ (List.mem_cons.mpr (.inl (List.mem_singleton.mp hmem))),
    fun _ _ _ _ _ _ hmem => h _ _ _ _ _ _ (List.mem_cons_of_mem i hmem)⟩

/-- A command keeps the `minNext` of a slot unless it is a tick at that `minNext` or later: the slot a tick sends is due. -/
theorem exec_slot_minNext_of_ticksBefore {i : Instr} {s t : State} {j : Fin 32} (he : exec i s = .next t)
    (hearly : TicksBefore (s.slot j).minNext [i]) : (t.slot j).minNext = (s.slot j).minNext := by
  rcases stagedBy_or_tick s.cfg i with ⟨idx, ps, hst⟩ | ⟨now, elapsed, page, live, rx, sbus2, rfl⟩
  · exact exec_slot_minNext he (by rw [hst]; exact Option.some_ne_none _) j
  · have hsoon := hearly _ _ _ _ _ _ (List.mem_singleton_self _)
    rcases execTick_cases now elapsed page live rx sbus2 s with h | ⟨q, -, -, -, -, -, -, hdue, h⟩ <;>
      obtain rfl := Host.Outcome.next.inj (h.symm.trans he)
    · rfl
    · rw [sendSlot_slot_other]
      rintro rfl
      omega

/-- A list of commands keeps the `minNext` of a slot if all its ticks come before that `minNext`. -/
theorem execAll_slot_minNext_of_ticksBefore {is : List Instr} {s u : State} {j : Fin 32}
    (h : execAll is s = .next u) (hearly : TicksBefore (s.slot j).minNext is) :
    (u.slot j).minNext = (s.slot j).minNext := by
  induction is generalizing s with
  | nil => rw [Host.Outcome.next.inj h]
  | cons i is ih =>
    obtain ⟨t, ht, hrest⟩ := exec_of_execAll_cons h
    obtain ⟨hfirst, hothers⟩ := hearly.of_cons
    have hkept := exec_slot_minNext_of_ticksBefore ht hfirst
    rw [ih hrest (by rwa [hkept]), hkept]

/-- Settles O54: the tick leaves the slot's `minNext` at `now + 1000`, the commands between keep it, so a tick before it is too
soon. -/
theorem spacingHoldsAcrossCommands : Obligations.SpacingHoldsAcrossCommands := by
  intro s t u now elapsed page q mid he hne hq hwrap hmid hrun now' elapsed' hnow' hq'
  obtain rfl := eq_sendSlot_of_execTick_ne he hne hq
  have harmed : ((sendSlot s (globalIndex page q) now).slot (globalIndex page q)).minNext = now + 1000 := by
    rw [sendSlot_slot, if_pos rfl, Slot.rearm_minNext, Nat.mod_eq_of_lt hwrap]
  have hkept := execAll_slot_minNext_of_ticksBefore hrun (by rw [harmed]; exact hmid)
  refine execTick_of_too_soon hq' ?_
  rw [hkept, harmed]
  exact hnow'

end Sys2Proof.Machine

namespace Sys2Proof.Machine

/-! The scalar codecs and `SBS10G` (R88 to R99, R130): the words of format C, the closed forms of the fields, and what each command
stages. -/

/-- A command that stages is well-formed: only the times of `TICK` are checked (R17). -/
theorem wf_of_stagedBy {c : Config} {i : Instr} {idx : Nat} {ps : List Payload} (timeW : Nat)
    (h : stagedBy c i = some (idx, ps)) : i.wf timeW = true := by
  cases i with
  | tick => cases h
  | _ => rfl

/-- A command of format C is decoded from its words whatever `AUX` holds (R58). -/
theorem decode_formatC {timeW : Nat} {i : Instr} {sel port : Byte} {ops : List Word} (hwf : i.wf timeW = true)
    (henc : encode timeW i = header sel port 0 :: ops) (hlo : 0x02 ≤ sel.toNat) (hhi : sel.toNat ≤ 0x0B)
    (aux : BitVec 16) (rest : List Word) : decode timeW (header sel port aux :: (ops ++ rest)) = .ok (i, rest) :=
  calc decode timeW (header sel port aux :: (ops ++ rest))
    _ = decode timeW (header sel port 0 :: (ops ++ rest)) :=
      ignoredHeaderBits.1 _ _ _ _ (by simp only [selField_header]) (by rwa [selField_header]) (by rwa [selField_header])
        (by simp only [portField_header])
    _ = decode timeW (encode timeW i ++ rest) := by rw [henc, List.cons_append]
    _ = .ok (i, rest) := decodeOfEncode timeW i rest hwf

/-- A command that stages completes from every state, with its payloads staged and nothing else changed (R88). -/
theorem exec_stagesFrom {i : Instr} {s : State} {idx : Nat} {ps : List Payload} (h : stagedBy s.cfg i = some (idx, ps)) :
    ∃ t, exec i s = .next t ∧ StagesFrom s t idx ps :=
  ⟨_, exec_of_stagedBy h, storeSeq_stagesFrom s idx ps⟩

/-- A codec's words, its payloads and its frame in one (R50, R58, R88). -/
theorem decode_and_exec_of_formatC {i : Instr} {s : State} {sel port : Byte} {ops : List Word} {idx : Nat}
    {ps : List Payload} (hstaged : stagedBy s.cfg i = some (idx, ps))
    (henc : encode s.cfg.timeW i = header sel port 0 :: ops) (hlo : 0x02 ≤ sel.toNat) (hhi : sel.toNat ≤ 0x0B)
    (aux : BitVec 16) (rest : List Word) :
    decode s.cfg.timeW (header sel port aux :: (ops ++ rest)) = .ok (i, rest)
      ∧ ∃ t, exec i s = .next t ∧ StagesFrom s t idx ps :=
  ⟨decode_formatC (wf_of_stagedBy _ hstaged) henc hlo hhi aux rest, exec_stagesFrom hstaged⟩

/-! The primitives on the ranges the fields use (R6, R7, R61, R62). -/

theorem bitAt_eq_decide (a : Int) (k : Nat) : bitAt a k = decide (a / 2 ^ k % 2 = 1) := by
  rw [bitAt, Int.shiftRight_eq_div_pow, Int.natCast_pow]
  rfl

/-- The OR with a bit that is set already. -/
theorem orMask_two_pow_of_set {a : Int} {k : Nat} (h : a / 2 ^ k % 2 = 1) : orMask a (2 ^ k) = a := by
  rw [orMask_two_pow, bitAt_eq_decide, if_pos (decide_eq_true h)]

/-- The OR with a bit that is clear. -/
theorem orMask_two_pow_of_clear {a : Int} {k : Nat} (h : a / 2 ^ k % 2 = 0) : orMask a (2 ^ k) = a + 2 ^ k := by
  rw [orMask_two_pow, bitAt_eq_decide, if_neg (by simp [h])]

/-- The AND with a mask of low bits keeps a value below it. -/
theorem andMask_of_lt_two_pow {a : Int} {k : Nat} (h0 : 0 ≤ a) (h : a < 2 ^ k) : andMask a (2 ^ k - 1) = a := by
  lift a to Nat using h0
  rw [andMask_natCast, Nat.and_two_pow_sub_one_of_lt_two_pow (by exact_mod_cast h)]

/-- A clamp with its upper test the other way round, as the closed forms of the fields write it. -/
theorem clamp_eq_ite (v lo hi : Int) : clamp v lo hi = if v < lo then lo else if v ≤ hi then v else hi := by
  unfold clamp
  split_ifs <;> omega

/-- A clamp stays between its bounds. -/
theorem clamp_mem {v lo hi : Int} (h : lo ≤ hi) : lo ≤ clamp v lo hi ∧ clamp v lo hi ≤ hi := by
  have hcases := clamp_cases (v := v) h
  omega

/-- Two bytes are equal when the eight bits they take are. -/
theorem byteAt_congr {v w : Int} {n k : Nat} (h : v / 2 ^ n % 256 = w / 2 ^ k % 256) : byteAt v n = byteAt w k := by
  refine BitVec.eq_of_toNat_eq (Int.ofNat_inj.mp ?_)
  rw [byteAt_toNat, byteAt_toNat, h]

/-! The closed forms of the fields. -/

/-- Slot 0 of `VOLT` over the ranges of `v1`: a negative number stays negative under the OR, bit 15 is added below `0x8000`, is
there already below `0x10000`, and the OR never decreases (R91). -/
theorem voltSlot0_eq (v : Int) :
    clamp (orMask v 0x8000) 0x8000 0x9FFF =
      if v < 0 then 0x8000 else if v ≤ 0x1FFF then 0x8000 + v else if v ≤ 0x7FFF then 0x9FFF
      else if v ≤ 0x9FFF then v else 0x9FFF := by
  have hneg : v < 0 → orMask v 0x8000 < 0 := orMask_neg 0x8000
  have hclear (h : v / 2 ^ 15 % 2 = 0) : orMask v 0x8000 = v + 0x8000 := orMask_two_pow_of_clear h
  have hset (h : v / 2 ^ 15 % 2 = 1) : orMask v 0x8000 = v := orMask_two_pow_of_set h
  have hge : v ≤ orMask v 0x8000 := (orMask_two_pow_bounds v 15).1
  rw [clamp_eq_ite]
  split_ifs <;> omega

/-- Slot 1 of `VOLT`: the mask keeps what the clamp answers (R91, C2). -/
theorem voltSlot1_eq (v : Int) :
    andMask (clamp v 0 0x1FFF) 0x1FFF = if v < 0 then 0 else if v ≤ 0x1FFF then v else 0x1FFF := by
  obtain ⟨h0, hmax⟩ := clamp_mem (v := v) (lo := 0) (hi := 0x1FFF) (by decide)
  exact (andMask_of_lt_two_pow (k := 13) h0 (by omega)).trans (clamp_eq_ite _ _ _)

/-- A 14-bit magnitude with the control bit `0x40` in its high byte is the number `0x4000 + m`, high byte first (R93).
The magnitude is a natural number, on which the shift of either type is the same. -/
theorem controlByte_payload {m : Nat} (h : m ≤ 0x3FFF) :
    ({ b0 := byteAt (andMask (orMask (m >>> 8 : Nat) 0x40) 0x7F) 0, b1 := byteAt m 0 } : Payload) = HB (0x4000 + m) := by
  have hshift : ((m >>> 8 : Nat) : Int) = m / 2 ^ 8 := by rw [Nat.shiftRight_eq_div_pow, Int.natCast_div]; rfl
  have hor : orMask (m / 2 ^ 8) 0x40 = m / 2 ^ 8 + 0x40 := orMask_two_pow_of_clear (k := 6) (by omega)
  have hand : andMask (m / 2 ^ 8 + 0x40) 0x7F = m / 2 ^ 8 + 0x40 := andMask_of_lt_two_pow (k := 7) (by omega) (by omega)
  rw [hshift, hor, hand, HB]
  congr 1 <;> exact byteAt_congr (by omega)

/-- Slot 0 of `CURR` (R92, R93). -/
theorem currentPayload_eq (c : Int) :
    currentPayload c = HB (0x4000 + (if c < 0 then 0 else if c ≤ 0x3FFF then c else 0x3FFF)) := by
  obtain ⟨h0, hmax⟩ := clamp_mem (v := c) (lo := 0) (hi := 0x3FFF) (by decide)
  obtain ⟨m, hm⟩ := Int.eq_ofNat_of_zero_le h0
  rw [← clamp_eq_ite, currentPayload, hm]
  exact controlByte_payload (by omega)

/-- The field of `RPM`: the quotient of a negative speed is not positive, and `393216` is `6 * 0x10000` (R98, R99). -/
theorem rpmField_eq (r : Int) :
    clamp (truncDiv r 6) 0 0xFFFF = if r < 0 then 0 else if r < 393216 then r / 6 else 0xFFFF := by
  have hneg : r < 0 → truncDiv r 6 = -(-r / 6) := truncDiv_of_neg
  have hpos : 0 ≤ r → truncDiv r 6 = r / 6 := truncDiv_of_nonneg
  rw [clamp_eq_ite]
  split_ifs <;> omega

/-- `TSBS01T` where bit 15 of the temperature is set: the OR changes nothing (R95). -/
theorem tsbs01tPayloads_of_set {t : Int} (h : t / 2 ^ 15 % 2 = 1) : tsbs01tPayloads t = [LB (t + 100)] := by
  have hor : orMask t 0x8000 = t := orMask_two_pow_of_set h
  rw [tsbs01tPayloads, hor]

/-- `TSBS01T` where bit 15 of the temperature is clear: the OR adds `0x8000` (R95). -/
theorem tsbs01tPayloads_of_clear {t : Int} (h : t / 2 ^ 15 % 2 = 0) : tsbs01tPayloads t = [LB (t + 32868)] := by
  have hor : orMask t 0x8000 = t + 0x8000 := orMask_two_pow_of_clear h
  rw [tsbs01tPayloads, hor, add_assoc]
  rfl

/-- `T125` where bit 14 of the temperature is set: the OR changes nothing (R97). -/
theorem t125Payloads_of_set {t : Int} (h : t / 2 ^ 14 % 2 = 1) : t125Payloads t = [HB t] := by
  have hor : orMask t 0x4000 = t := orMask_two_pow_of_set h
  rw [t125Payloads, hor]

/-- `T125` where bit 14 of the temperature is clear: the OR adds `0x4000` (R97). -/
theorem t125Payloads_of_clear {t : Int} (h : t / 2 ^ 14 % 2 = 0) : t125Payloads t = [HB (0x4000 + t)] := by
  have hor : orMask t 0x4000 = t + 0x4000 := orMask_two_pow_of_clear h
  rw [t125Payloads, hor, add_comm]

/-! The statements about the scalar codecs and `SBS10G`. -/

/-- Settles O22: `VOLT` is of format C and stages `voltPayloads`. -/
theorem voltStagesTwoSlots : Obligations.VoltStagesTwoSlots :=
  fun port aux v1 v2 rest _ => decode_and_exec_of_formatC (i := .volt port v1 v2) rfl rfl (by decide) (by decide) aux rest

/-- Settles O23: the payloads of `VOLT`, each field in its closed form. -/
theorem voltSaturatesAtItsBounds : Obligations.VoltSaturatesAtItsBounds := by
  intro port v1 v2 s
  rw [← voltSlot0_eq, ← voltSlot1_eq]
  exact exec_stagesFrom (i := .volt port v1 v2) rfl

/-- Settles O24: `CURR` is of format C, and its slot 0 is in closed form. -/
theorem currStagesThreeSlots : Obligations.CurrStagesThreeSlots := by
  intro port aux c v cap rest s
  rw [← currentPayload_eq]
  exact decode_and_exec_of_formatC (i := .curr port c v cap) rfl rfl (by decide) (by decide) aux rest

/-- Settles O25: `TSBS01T` is of format C and stages `tsbs01tPayloads`. -/
theorem tsbs01tStagesOneSlot : Obligations.Tsbs01tStagesOneSlot :=
  fun port aux x rest _ => decode_and_exec_of_formatC (i := .tsbs01t port x) rfl rfl (by decide) (by decide) aux rest

/-- Settles O26: `T125` is of format C and stages `t125Payloads`. -/
theorem t125StagesOneSlot : Obligations.T125StagesOneSlot :=
  fun port aux x rest _ => decode_and_exec_of_formatC (i := .t125 port x) rfl rfl (by decide) (by decide) aux rest

/-- Settles O27: on each of the ranges the mask's bit of the temperature is set throughout or clear throughout. -/
theorem temperatureFieldsByRange : Obligations.TemperatureFieldsByRange :=
  ⟨fun _ _ _ => tsbs01tPayloads_of_set (by omega), fun _ _ _ => tsbs01tPayloads_of_clear (by omega),
    fun _ _ _ => tsbs01tPayloads_of_set (by omega), fun _ _ _ => t125Payloads_of_set (by omega),
    fun _ _ _ => t125Payloads_of_clear (by omega), fun _ _ _ => t125Payloads_of_set (by omega)⟩

/-- Settles O28: `RPM` is of format C, and its field is in closed form. -/
theorem rpmStagesASixth : Obligations.RpmStagesASixth := by
  intro port aux r rest s
  rw [← rpmField_eq]
  exact decode_and_exec_of_formatC (i := .rpm port r) rfl rfl (by decide) (by decide) aux rest

/-- Settles O35: `SBS10G` is of format C and stages `layoutPayloads`, whose payload `k` is bytes `2k` and `2k + 1` of the layout, each
bit of them the answer of its own tree. -/
theorem sbs10gStagesEightSlots : Obligations.Sbs10gStagesEightSlots := by
  intro port aux h m sec lat lon alt speed vario rest s
  obtain ⟨hdecode, t, hexec, hstages⟩ := decode_and_exec_of_formatC (s := s)
    (i := .sbs10g port h m sec lat lon alt speed vario) rfl rfl (by decide) (by decide) aux rest
  exact ⟨hdecode, t, _, hexec, hstages, layoutPayloads_length _ _, fun k => ⟨_, layoutPayloads_getElem? _ _ k,
    fun i => ⟨layoutByte_getLsbD _ _ ⟨2 * k.val, by omega⟩ i, layoutByte_getLsbD _ _ ⟨2 * k.val + 1, by omega⟩ i⟩⟩⟩

end Sys2Proof.Machine

namespace Sys2Proof.Machine

/-! The multi-slot codecs `GPS1675`, `VARIO`, `ESC8` and `JETCAT` (R110 to R122): the closed forms of their fields, the bytes of a
coordinate, and what each command stages. -/

/-! The fields in closed form. -/

/-- A saturation from `0x4000` on after the OR with `0x4000`, up to a bound of 16 bits: a negative number stays negative under the
OR, bit 14 of the others decides whether the OR adds anything, and the OR never decreases (R62, D27). -/
theorem clamp_orMask_0x4000 {hi : Int} (hlo : 0x4000 ≤ hi) (hmax : hi ≤ 0xFFFF) (v : Int) :
    clamp (orMask v 0x4000) 0x4000 hi =
      if v < 0 then 0x4000 else if v < 0x4000 ∨ 0x8000 ≤ v ∧ v < 0xC000 then min (0x4000 + v) hi else min v hi := by
  have hneg : v < 0 → orMask v 0x4000 < 0 := orMask_neg 0x4000
  have hclear (h : v / 2 ^ 14 % 2 = 0) : orMask v 0x4000 = v + 0x4000 := orMask_two_pow_of_clear h
  have hset (h : v / 2 ^ 14 % 2 = 1) : orMask v 0x4000 = v := orMask_two_pow_of_set h
  have hge : v ≤ orMask v 0x4000 := (orMask_two_pow_bounds v 14).1
  have hcases := clamp_cases (v := orMask v 0x4000) hlo
  split_ifs <;> omega

/-- Slot 0 of `GPS1675` over the ranges of the speed (R111). -/
theorem gps1675Speed_eq (v : Int) :
    clamp (orMask v 0x4000) 0x4000 0x43E7 =
      if v < 0 then 0x4000 else if v ≤ 999 then 0x4000 + v else if v < 0x4000 then 0x43E7
      else if v ≤ 0x43E7 then v else 0x43E7 := by
  rw [clamp_orMask_0x4000 (by decide) (by decide)]
  split_ifs <;> omega

/-- A 16-bit constant, high byte first (R32, R112). -/
theorem HB_toNat (w : BitVec 16) : HB w.toNat = { b0 := w.extractLsb' 8 8, b1 := w.extractLsb' 0 8 } := by
  rw [HB, byteAt_natCast, byteAt_natCast]
  rfl

/-- Slot 0 of `JETCAT` over the ranges of the quotient, which is not positive for a negative number (R120, R121). -/
theorem jetcatSlot0_eq (r : Int) :
    clamp (orMask (truncDiv r 100) 0x4000) 0x4000 0xFFFF =
      if r < 0 then 0x4000
      else if r / 100 < 0x4000 then 0x4000 + r / 100
      else if r / 100 < 0x8000 then r / 100
      else if r / 100 < 0xC000 then 0x4000 + r / 100
      else if r / 100 ≤ 0xFFFF then r / 100
      else 0xFFFF := by
  have hneg : r < 0 → truncDiv r 100 = -(-r / 100) := truncDiv_of_neg
  have hpos : 0 ≤ r → truncDiv r 100 = r / 100 := truncDiv_of_nonneg
  rw [clamp_orMask_0x4000 (by decide) (by decide)]
  split_ifs <;> omega

/-- Slots 3 and 13 of `JETCAT`: the quotient of a negative number is not positive, and `6553600` is `100 * 0x10000` (R121). -/
theorem hundredths_eq (r : Int) :
    clamp (truncDiv r 100) 0 0xFFFF = if r < 0 then 0 else if r < 6553600 then r / 100 else 0xFFFF := by
  have hneg : r < 0 → truncDiv r 100 = -(-r / 100) := truncDiv_of_neg
  have hpos : 0 ≤ r → truncDiv r 100 = r / 100 := truncDiv_of_nonneg
  rw [clamp_eq_ite]
  split_ifs <;> omega

/-! The bytes of a coordinate. -/

/-- A number below `2 ^ k` vanishes under the OR with the mask of the `k` low bits. -/
theorem or_two_pow_sub_one_of_lt {n k : Nat} (h : n < 2 ^ k) : n ||| (2 ^ k - 1) = 2 ^ k - 1 := by
  have hsum := and_add_or n (2 ^ k - 1)
  rw [Nat.and_two_pow_sub_one_of_lt_two_pow h] at hsum
  omega

/-- The two lower fraction bytes of a coordinate, read back (R113). -/
theorem lowFraction_toNat (n : Nat) :
    (BitVec.ofNat 8 (n >>> 8)).toNat * 256 + (BitVec.ofNat 8 n).toNat = n % 65536 := by
  simp only [BitVec.toNat_ofNat, Nat.shiftRight_eq_div_pow]
  omega

/-- The top fraction byte of a coordinate loses nothing, since the fraction is below `10^6` (R113). -/
theorem topFraction_toNat {n : Nat} (h : n < 1000000) : (BitVec.ofNat 8 (n >>> 16)).toNat = n / 65536 := by
  rw [BitVec.toNat_ofNat, Nat.shiftRight_eq_div_pow]
  omega

/-- The hemisphere mask has every bit the top fraction byte can have (R114, entry 16). -/
theorem topFraction_or_mask {n : Nat} (h : n < 1000000) : (BitVec.ofNat 8 (n >>> 16) ||| 0x1F : Byte) = 0x1F := by
  have hlt : (BitVec.ofNat 8 (n >>> 16)).toNat < 2 ^ 5 := by
    rw [topFraction_toNat h]
    omega
  exact BitVec.eq_of_toNat_eq ((BitVec.toNat_or ..).trans (or_two_pow_sub_one_of_lt hlt))

/-- The three fraction bytes of a coordinate, read back (R113). -/
theorem fraction_toNat {n : Nat} (h : n < 1000000) :
    (BitVec.ofNat 8 (n >>> 16)).toNat * 65536 + (BitVec.ofNat 8 (n >>> 8)).toNat * 256 + (BitVec.ofNat 8 n).toNat = n := by
  rw [add_assoc, lowFraction_toNat, topFraction_toNat h, Nat.div_add_mod']

/-! The statements about the multi-slot codecs. -/

/-- Settles O29: `GPS1675` is of format C and stages `gps1675Payloads`, with the constant in its two bytes. -/
theorem gps1675StagesEightSlots : Obligations.Gps1675StagesEightSlots := by
  intro port aux speed alt vario lat lon rest s
  rw [← HB_toNat]
  exact decode_and_exec_of_formatC (i := .gps1675 port speed alt vario lat lon) rfl rfl (by decide) (by decide) aux rest

/-- Settles O30: the first of `gps1675Payloads`, in its closed form. -/
theorem gps1675SpeedSaturates : Obligations.Gps1675SpeedSaturates := by
  intro f1675Time speed alt vario lat lon
  rw [← gps1675Speed_eq]
  rfl

/-- Settles O31: the fraction is its three bytes, the top one below 16 and so replaced by the mask where the mask is applied; the
degree byte loses nothing below 256 degrees. -/
theorem coordinate1675RoundTrip : Obligations.Coordinate1675RoundTrip := by
  intro x
  have hfrac : x.natAbs % 1000000 < 1000000 := Nat.mod_lt _ (by decide)
  have hbytes := fraction_toNat hfrac
  refine ⟨_, _, _, _, rfl, BitVec.toNat_ofNat _ _, fun h => ?_, fun h hmax => ?_, fun h => ?_⟩
  · rw [if_neg h.not_gt]
    refine ⟨hbytes, ?_⟩
    rw [topFraction_toNat hfrac]
    omega
  · have hdeg : (BitVec.ofNat 8 (x.natAbs / 1000000)).toNat = x.natAbs / 1000000 :=
      (BitVec.toNat_ofNat _ _).trans (Nat.mod_eq_of_lt (by omega))
    rw [if_neg h.not_gt, hdeg]
    norm_cast
    rw [hbytes, Nat.div_add_mod', Int.natAbs_of_nonneg h]
  · rw [if_pos h]
    exact ⟨topFraction_or_mask hfrac, lowFraction_toNat _⟩

/-- Settles O32: `VARIO` is of format C and stages `varioPayloads`. -/
theorem varioStagesTwoSlots : Obligations.VarioStagesTwoSlots :=
  fun port aux v alt rest _ => decode_and_exec_of_formatC (i := .vario port v alt) rfl rfl (by decide) (by decide) aux rest

/-- Settles O33: `ESC8` is of format C and stages `esc8Payloads`. -/
theorem esc8StagesEightSlots : Obligations.Esc8StagesEightSlots :=
  fun port aux voltage capacity rpm current temp becTemp becCurrent pwm rest _ =>
    decode_and_exec_of_formatC (i := .esc8 port voltage capacity rpm current temp becTemp becCurrent pwm) rfl rfl (by decide)
      (by decide) aux rest

/-- Settles O34: `JETCAT` is of format C, and its three saturating fields are in closed form. -/
theorem jetcatStagesFourteenSlots : Obligations.JetcatStagesFourteenSlots := by
  intro port aux rpm egt pumpVoltage setpointRpm thrust fuel fuelFlow altitude quality voltage current speed status rpm2 rest s
  rw [← jetcatSlot0_eq, ← hundredths_eq, ← hundredths_eq]
  exact decode_and_exec_of_formatC
    (i := .jetcat port rpm egt pumpVoltage setpointRpm thrust fuel fuelFlow altitude quality voltage current speed status rpm2)
    rfl rfl (by decide) (by decide) aux rest

end Sys2Proof.Machine

namespace Sys2Proof.Machine

/-! The fields of `SBS10G` in closed form (R131 to R136) and its default layout in the two descriptions of R137. -/

/-! The fields in closed form. -/

/-- The bits of a natural number beyond its magnitude are clear. -/
theorem bitAt_of_lt_two_pow {a : Int} {k : Nat} (h0 : 0 ≤ a) (h : a < 2 ^ k) : bitAt a k = false := by
  rw [bitAt_eq_decide, Int.ediv_eq_zero_of_lt h0 h]
  rfl

/-- A coordinate field: its dividend is never negative, so the division rounds down, and the OR adds the hemisphere bit if it is
clear (R132, R133). -/
theorem latLon10G_eq (x : Int) (k : Nat) :
    latLon10G x k = (6 * (x.natAbs : Int) + 5) / 10
      + (if x < 0 ∧ bitAt ((6 * (x.natAbs : Int) + 5) / 10) k = false then 2 ^ k else 0) := by
  rw [latLon10G, truncDiv_of_nonneg (by omega), orMask_two_pow]
  by_cases hx : x < 0
  · cases bitAt ((6 * (x.natAbs : Int) + 5) / 10) k <;> simp [hx]
  · simp [hx]

/-- The altitude field: the dividend is positive on the valid range (R134). -/
theorem alt10G_eq (alt : Int) : alt10G alt = if -82000 ≤ alt ∧ alt ≤ 483000 then (alt + 82040) / 80 else 0 :=
  ite_congr rfl (fun h => truncDiv_of_nonneg (by omega)) fun _ => rfl

/-- The speed field: a speed below 512 leaves its enable bit free (R135). -/
theorem speed10G_eq (speed : Int) : speed10G speed = if 0 ≤ speed ∧ speed < 512 then 512 + speed else 0 :=
  ite_congr rfl (fun h => (orMask_two_pow_of_clear (k := 9) (by omega)).trans (add_comm _ _)) fun _ => rfl

/-- The vario field: the quotient is below the enable bit up to 25954, and from 25955 on it has that bit itself (R136). -/
theorem vario10G_eq (vario : Int) :
    vario10G vario =
      if -15000 ≤ vario ∧ vario < 25955 then 4096 + (vario + 15005) / 10
      else if 25955 ≤ vario ∧ vario ≤ 26000 then (vario + 15005) / 10
      else 0 := by
  have hquot (h : -15000 ≤ vario) : truncDiv (vario + 15005) 10 = (vario + 15005) / 10 := truncDiv_of_nonneg (by omega)
  have hclear (h : -15000 ≤ vario ∧ vario < 25955) :
      orMask ((vario + 15005) / 10) 0x1000 = (vario + 15005) / 10 + 0x1000 := orMask_two_pow_of_clear (k := 12) (by omega)
  have hset (h : 25955 ≤ vario ∧ vario ≤ 26000) : orMask ((vario + 15005) / 10) 0x1000 = (vario + 15005) / 10 :=
    orMask_two_pow_of_set (k := 12) (by omega)
  unfold vario10G
  split_ifs with hvalid hlow hhigh
  · rw [hquot hvalid.1, hclear hlow, add_comm]
  · rw [hquot hvalid.1, hset hhigh]
  all_goals omega

/-- Settles O36: the closed form of a coordinate, for either hemisphere bit; a magnitude of the range is below that bit. -/
theorem gpsTimeAndCoordinateFields : Obligations.GpsTimeAndCoordinateFields := by
  refine ⟨fun h m s lat lon _ _ _ => ⟨rfl, latLon10G_eq lat 26, latLon10G_eq lon 27⟩, fun _ hlat => ?_, fun _ hlon => ?_⟩
  · exact ⟨by omega, bitAt_of_lt_two_pow (by omega) (by omega)⟩
  · exact ⟨by omega, bitAt_of_lt_two_pow (by omega) (by omega)⟩

/-- Settles O37: the three closed forms. -/
theorem gpsGatedFields : Obligations.GpsGatedFields := ⟨alt10G_eq, speed10G_eq, vario10G_eq⟩

/-! Bit vectors whose bits are the answers of a list of trees. -/

/-- A bit of the two's-complement form of `n` bits (R6). -/
theorem ofInt_getLsbD (a : Int) {n i : Nat} (hi : i < n) : (BitVec.ofInt n a).getLsbD i = bitAt a i := by
  cases a with
  | ofNat m =>
    rw [Int.ofNat_eq_natCast, BitVec.ofInt_natCast, BitVec.getLsbD_ofNat, bitAt_natCast]
    simp [hi]
  | negSucc m =>
    rw [BitVec.ofInt_negSucc_eq_not_ofNat, BitVec.getLsbD_not, BitVec.getLsbD_ofNat, bitAt_negSucc]
    simp [hi]

/-- A bit after a shift (R6). -/
theorem bitAt_shiftRight (a : Int) (k i : Nat) : bitAt (a >>> k) i = bitAt a (k + i) := by
  rw [bitAt, bitAt, Int.shiftRight_add]

/-- The bits of `w`, least significant first, are the answers of the trees `bits`. -/
structure Answers (F : GpsFields) (bits : List BitSource) {n : Nat} (w : BitVec n) : Prop where
  length_eq : bits.length = n
  getLsbD_eq : ∀ (i : Nat) (h : i < bits.length), w.getLsbD i = sourceBit F bits[i]

/-- Consecutive bits of a field are a part of its two's-complement form. -/
theorem answers_fieldSlice (F : GpsFields) (f : GpsField) (k n : Nat) :
    Answers F ((List.range' k n).map (fieldBit f)) (BitVec.ofInt n (gpsField F f >>> k)) where
  length_eq := by simp
  getLsbD_eq i h := by
    rw [ofInt_getLsbD _ (by simpa using h), bitAt_shiftRight]
    simp

/-- The low bits of a field are its two's-complement form. -/
theorem answers_fieldBits (F : GpsFields) (f : GpsField) (n : Nat) :
    Answers F (fieldBits f n) (BitVec.ofInt n (gpsField F f)) := by
  have hslice := answers_fieldSlice F f 0 n
  rwa [← List.range_eq_range', Int.shiftRight_zero] at hslice

/-- Constant zeros are a zero. -/
theorem answers_zeros (F : GpsFields) (n : Nat) : Answers F (List.replicate n (.const false)) 0#n where
  length_eq := List.length_replicate
  getLsbD_eq i h := by simp

/-- The high part of a concatenation takes the later bits. -/
theorem Answers.append {F : GpsFields} {low high : List BitSource} {m n : Nat} {x : BitVec m} {y : BitVec n}
    (hhigh : Answers F high x) (hlow : Answers F low y) : Answers F (low ++ high) (x ++ y) where
  length_eq := by rw [List.length_append, hhigh.length_eq, hlow.length_eq, Nat.add_comm]
  getLsbD_eq i h := by
    obtain rfl := hlow.length_eq
    rw [BitVec.getLsbD_append, List.getElem_append]
    split
    next => exact hlow.getLsbD_eq i _
    next => exact hhigh.getLsbD_eq _ _

/-- A byte of a layout is the byte that its eight trees answer (R137). -/
theorem layoutByte_eq_of_answers {layout : Layout} {F : GpsFields} {j : Fin 16} {w : Byte}
    (h : Answers F layout[j].toList w) : layoutByte layout F j = w := by
  refine BitVec.eq_of_getLsbD_eq fun i hi => ?_
  rw [layoutByte_getLsbD layout F j ⟨i, hi⟩, h.getLsbD_eq i (by simpa using hi)]
  simp

/-! The default layout as one number. -/

/-- The number `W` of R137 as a bit vector. -/
def layoutNumber (F : GpsFields) : BitVec 128 :=
  BitVec.ofInt 13 F.vario ++ (BitVec.ofInt 13 F.alt ++ (0#20 ++ (BitVec.ofInt 10 F.speed ++
    (BitVec.ofInt 28 F.lon ++ (BitVec.ofInt 27 F.lat ++ BitVec.ofInt 17 F.utc)))))

/-- The 128 trees of the default layout answer the number `W` (R137). -/
theorem answers_layoutNumber (F : GpsFields) : Answers F defaultBits.toList (layoutNumber F) :=
  (answers_fieldBits F .vario 13).append <| (answers_fieldBits F .alt 13).append <| (answers_zeros F 20).append <|
    (answers_fieldBits F .speed 10).append <| (answers_fieldBits F .lon 28).append <|
      (answers_fieldBits F .lat 27).append <| answers_fieldBits F .utc 17

/-- Byte `j` of the default layout is `W[8j+7:8j]` (R137). -/
theorem layoutByte_default (F : GpsFields) (j : Fin 16) :
    layoutByte defaultLayout F j = (layoutNumber F).extractLsb' (8 * j.val) 8 := by
  refine BitVec.eq_of_getLsbD_eq fun i hi => ?_
  rw [layoutByte_getLsbD defaultLayout F j ⟨i, hi⟩, BitVec.getLsbD_extractLsb',
    (answers_layoutNumber F).getLsbD_eq (8 * j.val + i) (by simp; omega)]
  simp [defaultLayout, hi]

/-- A concatenation as a number. -/
theorem toNat_append_eq_add {m n : Nat} (x : BitVec m) (y : BitVec n) :
    (x ++ y).toNat = y.toNat + x.toNat * 2 ^ n := by
  rw [BitVec.toNat_append, ← Nat.shiftLeft_add_eq_or_of_lt y.isLt, Nat.shiftLeft_eq, Nat.add_comm]

/-- `W` as R137 writes it, a sum of the fields at their places. -/
theorem layoutNumber_toNat (F : GpsFields) :
    (layoutNumber F).toNat =
      (BitVec.ofInt 17 F.utc).toNat + (BitVec.ofInt 27 F.lat).toNat * 2 ^ 17 + (BitVec.ofInt 28 F.lon).toNat * 2 ^ 44
        + (BitVec.ofInt 10 F.speed).toNat * 2 ^ 72 + (BitVec.ofInt 13 F.alt).toNat * 2 ^ 102
        + (BitVec.ofInt 13 F.vario).toNat * 2 ^ 115 := by
  simp only [layoutNumber, toNat_append_eq_add, BitVec.toNat_zero]
  ring

/-- The low `n` bytes of a number, read as one little-endian number. -/
theorem sum_bytes_eq_mod (x n : Nat) :
    ((List.finRange n).map fun j => x / 256 ^ j.val % 256 * 256 ^ j.val).sum = x % 256 ^ n := by
  have hrange : ((List.range n).map fun j => x / 256 ^ j % 256 * 256 ^ j).sum = x % 256 ^ n := by
    induction n with
    | zero => simp [Nat.mod_one]
    | succ n ih =>
      rw [List.range_succ, List.map_append, List.sum_append, ih, Nat.mod_pow_succ]
      simp [Nat.mul_comm]
  rw [← hrange, ← List.map_coe_finRange_eq_range, List.map_map]
  rfl

/-- Settles O39: the bytes of the default layout are those of `W`, which has no bit beyond the sixteen bytes. -/
theorem defaultLayoutNumber : Obligations.DefaultLayoutNumber := by
  intro F
  have hbyte (j : Fin 16) :
      (layoutByte defaultLayout F j).toNat = (layoutNumber F).toNat / 256 ^ j.val % 256 := by
    rw [layoutByte_default, BitVec.extractLsb'_toNat, Nat.shiftRight_eq_div_pow, Nat.pow_mul]
  simp only [hbyte]
  have hlt : (layoutNumber F).toNat < 256 ^ 16 := (layoutNumber F).isLt
  rw [sum_bytes_eq_mod, Nat.mod_eq_of_lt hlt, layoutNumber_toNat]

/-! The default layout as a table of bytes. -/

/-- The eight payloads, byte by byte (R137). -/
theorem layoutPayloads_eq (layout : Layout) (F : GpsFields) :
    layoutPayloads layout F =
      [⟨layoutByte layout F 0, layoutByte layout F 1⟩, ⟨layoutByte layout F 2, layoutByte layout F 3⟩,
       ⟨layoutByte layout F 4, layoutByte layout F 5⟩, ⟨layoutByte layout F 6, layoutByte layout F 7⟩,
       ⟨layoutByte layout F 8, layoutByte layout F 9⟩, ⟨layoutByte layout F 10, layoutByte layout F 11⟩,
       ⟨layoutByte layout F 12, layoutByte layout F 13⟩, ⟨layoutByte layout F 14, layoutByte layout F 15⟩] := rfl

/-- Settles O38: each byte of the table is answered by the trees of its place. The statement shifts a field by an integer, the model
by a natural number. -/
theorem defaultLayoutTable : Obligations.DefaultLayoutTable := by
  intro F
  have whole (f : GpsField) (k : Nat) : Answers F ((List.range' k 8).map (fieldBit f)) (byteAt (gpsField F f) k) :=
    answers_fieldSlice F f k 8
  have high (f : GpsField) (k n : Nat) :
      Answers F ((List.range' k n).map (fieldBit f)) (BitVec.ofInt n (gpsField F f >>> (k : Int))) := by
    rw [Int.shiftRight_natCast_right]
    exact answers_fieldSlice F f k n
  have low := answers_fieldBits F
  have zeros := answers_zeros F
  have byte {w : Byte} (j : Fin 16) (h : Answers F defaultLayout[j].toList w) : layoutByte defaultLayout F j = w :=
    layoutByte_eq_of_answers h
  rw [layoutPayloads_eq,
    byte 0 (whole .utc 0), byte 1 (whole .utc 8),
    byte 2 ((low .lat 7).append (high .utc 16 1)), byte 3 (whole .lat 7),
    byte 4 (whole .lat 15), byte 5 ((low .lon 4).append (high .lat 23 4)),
    byte 6 (whole .lon 4), byte 7 (whole .lon 12),
    byte 8 (whole .lon 20), byte 9 (whole .speed 0),
    byte 10 ((zeros 6).append (high .speed 8 2)), byte 11 (zeros 8),
    byte 12 ((low .alt 2).append (zeros 6)), byte 13 (whole .alt 2),
    byte 14 ((low .vario 5).append (high .alt 10 3)), byte 15 (whole .vario 5)]
  rfl

end Sys2Proof.Machine

namespace Sys2Proof.Machine

/-! The two outcomes of a tick (R150 to R159): it sends the slot at its index, or it leaves the state as it was. -/

/-- Sending a slot re-arms it (R82, R83). -/
theorem sendSlot_slot_same (s : State) (i : Fin 32) (now : Nat) :
    (sendSlot s i now).slot i = (s.slot i).rearm ((now + minSpacing) % 2 ^ s.cfg.timeW) := by
  rw [sendSlot_slot, if_pos rfl]

/-- Settles O44: the tick passes every check, so it sends the slot at `page*8 + q`, and sending re-arms that slot only. -/
theorem tickSendsTheFrame : Obligations.TickSendsTheFrame := by
  intro s now elapsed page q idx hfresh hq hidx hused hdue
  obtain rfl : idx = globalIndex page q := Fin.ext hidx
  exact ⟨_, execTick_sends hfresh hq hused hdue, sendSlot_tx _ _ _, sendSlot_slot_same _ _ _,
    fun _ => sendSlot_slot_other now, sendSlot_port _ _ _, sendSlot_cfg _ _ _⟩

/-- Settles O45: a tick that does not leave the state as it was has passed every check, and each of the conditions contradicts one
of them. -/
theorem tickIsSilentOtherwise : Obligations.TickIsSilentOtherwise := by
  intro s now elapsed page live rx sbus2 hfails
  rcases execTick_cases now elapsed page live rx sbus2 s with
    hsilent | ⟨q, rfl, rfl, rfl, hfresh, hq, hused, hdue, -⟩
  · exact hsilent
  · exfalso
    rcases hfails with hlive | hrx | hsbus2 | hstale | hnone | ⟨q', idx, hq', hidx, hslot⟩
    · cases hlive
    · cases hrx
    · cases hsbus2
    · exact Nat.not_lt.mpr hfresh hstale
    · cases hnone.symm.trans hq
    · obtain rfl := Option.some.inj (hq.symm.trans hq')
      obtain rfl : idx = globalIndex page q := Fin.ext hidx
      rcases hslot with hunused | hsoon
      · cases hunused.symm.trans hused
      · exact Nat.not_lt.mpr hdue hsoon

end Sys2Proof.Machine

namespace Sys2Proof.Machine

/-! The labels of a tick are complete (R171, R172, R175): no label holds exactly when every check is passed, and a tick that
passes every check leaves a state with a longer `TX`. -/

/-- Sending a slot changes the state: `TX` grows by three bytes (R156). -/
theorem sendSlot_ne_self (s : State) (i : Fin 32) (now : Nat) : sendSlot s i now ≠ s := by
  intro heq
  have htx : s.tx ++ [slotId s.cfg i, (s.slot i).payload.b0, (s.slot i).payload.b1] = s.tx := congrArg State.tx heq
  exact List.cons_ne_nil _ _ (List.append_right_eq_self.mp htx)

/-- No label holds of a tick exactly when it passes every check of R150 to R154. -/
theorem tickLabel_eq_none_iff {now elapsed : Nat} {page : BitVec 2} {live rx sbus2 : Bool} {s : State} :
    tickLabel now elapsed page live rx sbus2 s = none ↔
      (live && rx && sbus2) = true ∧ elapsed ≤ staleMax ∧ ∃ q, resolveSlot elapsed = some q ∧
        (s.slot (globalIndex page q)).used = true ∧ (s.slot (globalIndex page q)).minNext ≤ now := by
  unfold tickLabel
  cases live && rx && sbus2 with
  | false => simp
  | true =>
    by_cases hstale : staleMax < elapsed
    · simp [hstale]
    · cases resolveSlot elapsed with
      | none => simp [hstale]
      | some q => cases hused : (s.slot (globalIndex page q)).used <;> simp [hstale, hused, Nat.not_lt.mp hstale]

/-- Settles O46: a tick with no label passes every check, so it sends and the state changes; a tick that does not leave the state
as it was has passed every check, so no label holds of it. -/
theorem tickLabelsAreComplete : Obligations.TickLabelsAreComplete := by
  intro s now elapsed page live rx sbus2
  constructor
  · intro hsilent hlabel
    obtain ⟨henabled, hfresh, q, hq, hused, hdue⟩ := tickLabel_eq_none_iff.mp hlabel
    obtain ⟨⟨rfl, rfl⟩, rfl⟩ : (live = true ∧ rx = true) ∧ sbus2 = true := by simpa using henabled
    have hsends := execTick_sends hfresh hq hused hdue
    exact sendSlot_ne_self _ _ _ (Host.Outcome.next.inj (hsends.symm.trans hsilent))
  · intro hlabel
    rcases execTick_cases now elapsed page live rx sbus2 s with
      hsilent | ⟨q, rfl, rfl, rfl, hfresh, hq, hused, hdue, -⟩
    · exact hsilent
    · exact absurd (tickLabel_eq_none_iff.mpr ⟨rfl, hfresh, q, hq, hused, hdue⟩) hlabel

end Sys2Proof.Machine

namespace Sys2Proof.Machine

/-! The port with less than a whole command before a reset or before nothing (entries 1, 8 and 9), and the step of the reset
input (R190). -/

section
variable {timeW : Nat} {ws : List Word} {sel : Selector}

/-- With only the beginning of a command presented, the block finds nothing it can act on (R14; entry 8). -/
theorem fetch_incomplete (hd : decode timeW ws = .error (.incomplete sel)) : fetch timeW (ws.map .word) = .waiting := by
  have hp : presented (ws.map .word) = (ws, []) := by simpa [presented] using presented_words ws []
  simp only [fetch, hp, hd]

/-- With only the beginning of a command presented before the reset input, the block finds the reset input (entry 9). -/
theorem fetch_incomplete_reset (hd : decode timeW ws = .error (.incomplete sel)) (es : List PortEvent) :
    fetch timeW (ws.map .word ++ .reset :: es) = .resetInput es := by
  have hp : presented (ws.map .word ++ .reset :: es) = (ws, .reset :: es) := by
    simpa [presented] using presented_words ws (.reset :: es)
  simp only [fetch, hp, hd]

end

section
variable {s : State}

/-- With nothing to act on, the block waits (R14). -/
theorem step_of_waiting (hf : fetch s.cfg.timeW s.port = .waiting) : step s = .next s := by
  rw [step, hf]
  rfl

/-- The step of the reset input is `applyReset`, on what is left at the port (R190). -/
theorem step_of_resetInput {es : List PortEvent} (hf : fetch s.cfg.timeW s.port = .resetInput es) :
    step s = .next (applyReset { s with port := es }) := by
  rw [step, hf]

end

/-- Settles O11: the block finds the reset input, and every slot after it is `resetSlot`. -/
theorem resetInputRestoresEveryValue : Obligations.ResetInputRestoresEveryValue := by
  intro s es hport
  have hf : fetch s.cfg.timeW s.port = .resetInput es := by rw [hport, fetch_reset]
  refine ⟨_, step_of_resetInput hf, fun i => ?_, applyReset_tx _, applyReset_cfg _, applyReset_port _⟩
  rw [applyReset_slot]
  exact ⟨rfl, rfl, rfl⟩

/-- Settles O8: in both cases the block finds nothing it can act on. -/
theorem waitsForAWholeCommand : Obligations.WaitsForAWholeCommand := by
  refine fun s => ⟨fun hport => step_of_waiting ?_, fun ws sel hport hd => step_of_waiting ?_⟩
  · rw [hport, fetch_nil]
  · rw [hport, fetch_incomplete hd]

/-- Settles O9: the block finds the reset input behind the words, so the step is the reset's. -/
theorem resetDiscardsAnIncompleteCommand : Obligations.ResetDiscardsAnIncompleteCommand := by
  intro s ws sel es hport hd
  have hf : fetch s.cfg.timeW s.port = .resetInput es := by rw [hport, fetch_incomplete_reset hd]
  exact ⟨_, step_of_resetInput hf, applyReset_slot _, applyReset_tx _, applyReset_cfg _, applyReset_port _⟩

end Sys2Proof.Machine
